-- ==== Sys2Proof/Word.lean ====
section
/-! DEFINITION. The widths the spec gives its fixed-size values. Integer registers are exact integers (`Int`), not words. -/

namespace Sys2Proof

/-- A control register and a command word: 32 bits (10_state.md R25, 30_encoding.md R70). -/
abbrev Word := BitVec 32

/-- A text cell: an 8-bit character code (20_memory.md R51). -/
abbrev Byte := BitVec 8

end Sys2Proof
end

