-- ==== Sys2Proof/Config.lean ====
section
/-! DEFINITION. What an implementation fixes (00_scope.md R5) and the free values of unwritten text cells (70_reset_and_hazards.md R191). -/

namespace Sys2Proof

/-- `INT_BITS`, the width of each integer register, which may be infinite (00_scope.md R5). -/
inductive IntBits where
  | finite (n : Nat)
  | unbounded
deriving DecidableEq, Repr

/-- The three implementation parameters of 00_scope.md R5. No source fixes their values, so a machine carries them as
data and claims are made for all of them (log 1). -/
structure Config where
  /-- `INT_BITS`. -/
  intBits : IntBits
  /-- `MAX_LEN`, the number of cells of each text space. -/
  maxLen : Nat
  /-- `MAX_WIDTH`, the largest block width the block units accept. -/
  maxWidth : Nat
deriving DecidableEq, Repr

namespace Config

/-- The values of the parameters after `State.reset`: those 95_test_vectors.md uses "unless a vector says otherwise".
DESIGN CHOICE (log 1), unsafe: no rule fixes them. -/
def default : Config := { intBits := .unbounded, maxLen := 64, maxWidth := 8 }

/-- What a cell of `TIN` that the host has not written since reset holds: any 8-bit value (R191, U6). A free value
(log 4): nothing evaluates it. -/
opaque unwrittenTin : Nat → Byte

/-- What a cell of `TOUT` that no command has written since reset holds: any 8-bit value (R191, U6). A free value
(log 4). -/
opaque unwrittenTout : Nat → Byte

end Config

end Sys2Proof
end

