-- ==== Sys2Proof/Syntax.lean ====
section
/-! DEFINITION. The commands (30_encoding.md R72), the registers' names, the host's accesses and what a host read returns. -/

namespace Sys2Proof

/-- The eleven commands, one per row of the opcode map (30_encoding.md R72). No command has an operand field: operands
are never encoded in the command word (R71). -/
inductive Instr where
  | gcd
  | egcd
  | minvBf
  | minvEe
  | affEnc
  | affDec
  | stringify
  | strEnc
  | strDec
  | blkEnc
  | blkDec
deriving DecidableEq, Repr

/-- The seven integer registers `x[0]` to `x[6]` (10_state.md R21). -/
inductive IntReg where
  | opa
  | opm
  | keyk
  | keyb
  | r0
  | r1
  | r2
deriving DecidableEq, Repr

/-- The five control registers `c[0]` to `c[4]` (10_state.md R25). -/
inductive CtlReg where
  | cmd
  | status
  | width
  | len
  | olen
deriving DecidableEq, Repr

/-- One host access: the events of 20_memory.md R56, over the locations of 10_state.md R21, R25 and 20_memory.md R50.
A command is the write of a word to `CMD` (10_state.md R26), `wrCtl .cmd w`. -/
inductive HostAccess where
  /-- Host write of an integer register. -/
  | wrInt (r : IntReg) (v : Int)
  /-- Host write of a control register; a write of `CMD` starts a command. -/
  | wrCtl (c : CtlReg) (w : Word)
  /-- Host write of cell `i` of `TIN`. -/
  | wrTin (i : Nat) (v : Byte)
  /-- Host write of cell `i` of `TOUT`, which is ignored (R50). -/
  | wrTout (i : Nat) (v : Byte)
  /-- Host read of an integer register. -/
  | rdInt (r : IntReg)
  /-- Host read of a control register. -/
  | rdCtl (c : CtlReg)
  /-- Host read of cell `i` of `TIN`. -/
  | rdTin (i : Nat)
  /-- Host read of cell `i` of `TOUT`. -/
  | rdTout (i : Nat)
deriving DecidableEq, Repr

/-- What a host read returns: an integer, a 32-bit word or a character code (20_memory.md R57). -/
inductive HostValue where
  | int (v : Int)
  | word (w : Word)
  | code (c : Byte)
deriving DecidableEq, Repr

end Sys2Proof
end

