-- ==== Sys2Proof/WellFormed.lean ====
section
/-! DEFINITION. The checks on configurations (00_scope.md R5), commands (30_encoding.md R71) and host accesses
(93_implementation_defined.md U11). -/

namespace Sys2Proof

/-- `INT_BITS` is at least 8, or infinite (00_scope.md R5). -/
def IntBits.wf : IntBits → Bool
  | .finite n => decide (8 ≤ n)
  | .unbounded => true

/-- The integers a register of this width holds: `−IMAX ≤ v ≤ IMAX`, `IMAX = 2^(INT_BITS−1) − 1` (R5, 10_state.md R21). -/
def IntBits.fits (b : IntBits) (v : Int) : Bool :=
  match b with
  | .finite n => decide (v.natAbs ≤ 2 ^ (n - 1) - 1)
  | .unbounded => true

/-- The constraints of 00_scope.md R5 on the three parameters. -/
def Config.wf (c : Config) : Bool :=
  c.intBits.wf && decide (1 ≤ c.maxLen) && decide (c.maxLen ≤ 2 ^ 32 - 1)
    && decide (1 ≤ c.maxWidth) && decide (c.maxWidth ≤ 2 ^ 32 - 1)

/-- Every command is well formed: it has no field that could be out of range (30_encoding.md R71). -/
def Instr.wf : Instr → Bool
  | .gcd => true
  | .egcd => true
  | .minvBf => true
  | .minvEe => true
  | .affEnc => true
  | .affDec => true
  | .stringify => true
  | .strEnc => true
  | .strDec => true
  | .blkEnc => true
  | .blkDec => true

/-- The host accesses that are steps of the machine (93_implementation_defined.md U11): an integer write carries a
value the register can hold (10_state.md R23), a cell index is below `MAX_LEN` (20_memory.md R52). -/
def HostAccess.wf (c : Config) : HostAccess → Bool
  | .wrInt _ v => c.intBits.fits v
  | .wrCtl _ _ => true
  | .wrTin i _ => decide (i < c.maxLen)
  | .wrTout i _ => decide (i < c.maxLen)
  | .rdInt _ => true
  | .rdCtl _ => true
  | .rdTin i => decide (i < c.maxLen)
  | .rdTout i => decide (i < c.maxLen)

end Sys2Proof
end

