-- ==== Sys2Proof/Decode.lean ====
section
/-! DEFINITION. The decoder of command words, total on all 32-bit words (30_encoding.md R70 to R76), the encoder, and the
host's view of the opcode table. -/

namespace Sys2Proof

/-- Field `RSVD`, bits 31 down to 8 (30_encoding.md R70). -/
def rsvdField (w : Word) : BitVec 24 := w.extractLsb' 8 24

/-- Field `OPC`, bits 7 down to 0 (30_encoding.md R70). -/
def opcField (w : Word) : BitVec 8 := w.extractLsb' 0 8

/-- The `OPC` column of the opcode map read as a decoder (30_encoding.md R72); every other opcode is reserved (R75). -/
def instrOfOpcode (opc : BitVec 8) : Option Instr :=
  match opc with
  | 0x01#8 => some .gcd
  | 0x02#8 => some .egcd
  | 0x03#8 => some .minvBf
  | 0x04#8 => some .minvEe
  | 0x10#8 => some .affEnc
  | 0x11#8 => some .affDec
  | 0x20#8 => some .stringify
  | 0x30#8 => some .strEnc
  | 0x31#8 => some .strDec
  | 0x40#8 => some .blkEnc
  | 0x41#8 => some .blkDec
  | _ => none

/-- Decoding looks at the whole word and at nothing else (30_encoding.md R70, R74): `RSVD` must be 0 and `OPC` in the
opcode map; every other word is reserved and illegal (R75), `none`. -/
def decode (w : Word) : Option Instr :=
  if rsvdField w = 0 then instrOfOpcode (opcField w) else none

/-- The `OPC` column of the opcode map read as an encoder (30_encoding.md R72). -/
def Instr.opcode : Instr → BitVec 8
  | .gcd => 0x01#8
  | .egcd => 0x02#8
  | .minvBf => 0x03#8
  | .minvEe => 0x04#8
  | .affEnc => 0x10#8
  | .affDec => 0x11#8
  | .stringify => 0x20#8
  | .strEnc => 0x30#8
  | .strDec => 0x31#8
  | .blkEnc => 0x40#8
  | .blkDec => 0x41#8

/-- The command word of a command: `RSVD` 0 above its opcode (30_encoding.md R70). -/
def encode (i : Instr) : Word := (0 : BitVec 24) ++ i.opcode

/-- The command word whose bits are `w`, of which the opcode table gives `nbits`; a word is 32 bits (30_encoding.md R76),
so bits beyond them are no command word. -/
def tableWord (nbits w : Nat) : Option Word :=
  let bits := w % 2 ^ nbits
  if bits < 2 ^ 32 then some (BitVec.ofNat 32 bits) else none

/-- The command the decoder reads from the word whose bits are `w`, as spec/opcode_table.json numbers them. -/
def decodeTableWord (nbits w : Nat) : Option Instr := (tableWord nbits w).bind decode

end Sys2Proof
end

