-- ==== Sys2Proof/Machine/State.lean ====
section
/-! DEFINITION. The architectural state (10_state.md, 20_memory.md), the state after reset, and the reasons a step can stop. -/

namespace Sys2Proof.Machine

/-- A text space: the cells that have been written since reset, as (index, code) pairs with strictly rising indices. A
cell that is not listed has not been written, and what it holds is unspecified (70_reset_and_hazards.md R191). -/
abbrev Memory := List Host.Cell

/-- The status codes of 60_exceptions.md R170. -/
inductive Status where
  | ok
  | invalidChar
  | nonInvertibleKey
  | invalidModulus
  | noInverse
  | illegalCmd
  | operandRange
  | resultRange
  | shortCiphertext
  | indexRange
deriving DecidableEq, Repr

/-- The machine. The registers and text spaces are all the state the engine has (10_state.md R20); `cfg` is fixed for a
machine (00_scope.md R5); `script` and `reads` stand for the host and are no state of the engine. -/
structure State where
  /-- The implementation parameters; no step changes them (log 1). -/
  cfg : Config
  /-- `OPA`, `x[0]` (10_state.md R21). -/
  opa : Int
  /-- `OPM`, `x[1]`. -/
  opm : Int
  /-- `KEYK`, `x[2]`. -/
  keyk : Int
  /-- `KEYB`, `x[3]`. -/
  keyb : Int
  /-- `R0`, `x[4]`. -/
  r0 : Int
  /-- `R1`, `x[5]`. -/
  r1 : Int
  /-- `R2`, `x[6]`. -/
  r2 : Int
  /-- `CMD`, `c[0]`: the last word written to it (10_state.md R26). -/
  cmd : Word
  /-- `STATUS`, `c[1]`: the code of the last command's outcome (R27). -/
  status : Word
  /-- `WIDTH`, `c[2]` (R28). -/
  width : Word
  /-- `LEN`, `c[3]` (R28). -/
  len : Word
  /-- `OLEN`, `c[4]` (R28). -/
  olen : Word
  /-- `TIN`, the input text (20_memory.md R50). -/
  tin : Memory
  /-- `TOUT`, the output text (20_memory.md R50). -/
  tout : Memory
  /-- The model's own: the host accesses still to come, in the total order of 20_memory.md R56 (log 2). -/
  script : List HostAccess
  /-- The model's own: what the host's reads returned, the latest first (log 3). -/
  reads : List HostValue
deriving DecidableEq, Repr

/-- Why the machine stops with a fault. -/
inductive Fault where
  /-- Raised by a host access of a text cell whose index is at or above `MAX_LEN`: the cell does not exist, and the access
  is no step of the machine (20_memory.md R52, 93_implementation_defined.md U11). Safe (log 6). -/
  | noSuchCell
deriving DecidableEq, Repr

/-- Why the machine refuses a step. -/
inductive Refusal where
  /-- Raised by `exec` for a command without a meaning in this model; no arm is left that does. Safe. -/
  | notModelled (mnemonic : String)
  /-- Raised by a host write of an integer outside `−IMAX .. IMAX`: the register cannot hold it and the model refuses the
  step (10_state.md R23, 93_implementation_defined.md U11). Safe (log 5). -/
  | unrepresentable
deriving DecidableEq, Repr

/-- The state after reset (10_state.md R32, 70_reset_and_hazards.md R190): every register 0, no text cell written. The
parameters are those of `Config.default` (log 1); the host has no access pending (log 2) and has read nothing (log 3). -/
def State.reset : State where
  cfg := Config.default
  opa := 0
  opm := 0
  keyk := 0
  keyb := 0
  r0 := 0
  r1 := 0
  r2 := 0
  cmd := 0
  status := 0
  width := 0
  len := 0
  olen := 0
  tin := []
  tout := []
  script := []
  reads := []

end Sys2Proof.Machine
end

