-- ==== Sys2Proof/Machine/Flags.lean ====
section
/-! DEFINITION. The status codes as numbers and as the `STATUS` word. The engine has no flags and no condition codes: the
one status is the whole of `STATUS` (10_state.md R29). -/

namespace Sys2Proof.Machine

/-- The number of a status code (60_exceptions.md R170). -/
def Status.code : Status → BitVec 4
  | .ok => 0
  | .invalidChar => 1
  | .nonInvertibleKey => 2
  | .invalidModulus => 3
  | .noInverse => 4
  | .illegalCmd => 5
  | .operandRange => 6
  | .resultRange => 7
  | .shortCiphertext => 8
  | .indexRange => 9

/-- The word `STATUS` holds: bits 31 down to 4 are 0, bits 3 down to 0 the code (10_state.md R25). -/
def Status.word (st : Status) : Word := (0 : BitVec 28) ++ st.code

end Sys2Proof.Machine
end

