-- ==== Sys2Proof/Machine/Ops.lean ====
section
/-! DEFINITION. The named operations over registers and text cells, and how a command ends (60_exceptions.md R174). -/

namespace Sys2Proof.Machine

/-! ### Text spaces -/

/-- The code last written to cell `a`, `none` if none was written since reset (20_memory.md R52). -/
def Memory.get? : Memory → Nat → Option Byte
  | [], _ => none
  | (b, v) :: m, a => if a = b then some v else Memory.get? m a

/-- Write code `v` to cell `a`, keeping the cells listed by rising index (20_memory.md R53). -/
def Memory.set : Memory → Nat → Byte → Memory
  | [], a, v => [(a, v)]
  | (b, w) :: m, a, v =>
    if a < b then (a, v) :: (b, w) :: m
    else if a = b then (a, v) :: m
    else (b, w) :: Memory.set m a v

/-- Write the codes `vs` to cells `a`, `a + 1`, … -/
def Memory.writeFrom (m : Memory) (a : Nat) : List Byte → Memory
  | [] => m
  | v :: vs => Memory.writeFrom (Memory.set m a v) (a + 1) vs

/-- The canonical form of a text space: indices strictly rise. A cell that is not listed has not been written, so no
entry can repeat what an unlisted cell holds (log 4). -/
abbrev Memory.wf (m : Memory) : Prop := m.Pairwise (fun c d => c.1 < d.1)

/-- Every listed cell exists: its index is below `n`, which is `MAX_LEN` (20_memory.md R50). -/
abbrev Memory.below (n : Nat) (m : Memory) : Prop := ∀ c ∈ m, c.1 < n

/-! ### One update per field -/

def State.setOpa (s : State) (v : Int) : State := { s with opa := v }
def State.setOpm (s : State) (v : Int) : State := { s with opm := v }
def State.setKeyk (s : State) (v : Int) : State := { s with keyk := v }
def State.setKeyb (s : State) (v : Int) : State := { s with keyb := v }
def State.setR0 (s : State) (v : Int) : State := { s with r0 := v }
def State.setR1 (s : State) (v : Int) : State := { s with r1 := v }
def State.setR2 (s : State) (v : Int) : State := { s with r2 := v }
def State.setCmd (s : State) (w : Word) : State := { s with cmd := w }
def State.setStatus (s : State) (w : Word) : State := { s with status := w }
def State.setWidth (s : State) (w : Word) : State := { s with width := w }
def State.setLen (s : State) (w : Word) : State := { s with len := w }
def State.setOlen (s : State) (w : Word) : State := { s with olen := w }
def State.setTin (s : State) (m : Memory) : State := { s with tin := m }
def State.setTout (s : State) (m : Memory) : State := { s with tout := m }
def State.setScript (s : State) (l : List HostAccess) : State := { s with script := l }
def State.setReads (s : State) (l : List HostValue) : State := { s with reads := l }

/-! ### Text access -/

/-- `MemRead(TIN, i, 1)` (20_memory.md R52): the code last written to cell `i`; a cell the host has not written since
reset holds an unspecified value, the free value of log 4. -/
def State.tinRead (s : State) (i : Nat) : Byte := (s.tin.get? i).getD (Config.unwrittenTin i)

/-- What a host read of cell `i` of `TOUT` returns (20_memory.md R50): the code last written by a command, or the
unspecified value of a cell never written (70_reset_and_hazards.md R191). -/
def State.toutRead (s : State) (i : Nat) : Byte := (s.tout.get? i).getD (Config.unwrittenTout i)

/-- `MemWrite(TOUT, i, 1, codes[i])` for every position `i` of `codes` (20_memory.md R53). -/
def State.writeTout (s : State) (codes : List Byte) : State := s.setTout (s.tout.writeFrom 0 codes)

/-- Whether an integer register can hold `v`: `−IMAX ≤ v ≤ IMAX` (10_state.md R21). -/
def State.fits (s : State) (v : Int) : Bool := s.cfg.intBits.fits v

/-! ### How a command ends -/

/-- A failing command (60_exceptions.md R174): `STATUS` holds the code and nothing else changes. Nothing is saved, nothing
is vectored; `CMD` was written when the command was issued. There is no return from it (R176): the next command simply
overwrites `STATUS`. -/
def raise (st : Status) (s : State) : Host.Outcome State Fault Refusal := .next (s.setStatus st.word)

/-- A command that ends with `ST_OK`, its results already written into `s` (10_state.md R27). -/
def succeed (s : State) : Host.Outcome State Fault Refusal := .next (s.setStatus Status.ok.word)

end Sys2Proof.Machine
end

