-- ==== Sys2Proof/Machine/Alphabet.lean ====
section
/-! DEFINITION. The alphabet lookup (42_alphabet_stream.md R120 to R122). The table is fixed; it is no state. -/

namespace Sys2Proof.Machine

/-- The alphabet size (00_scope.md R6). -/
def alphabetSize : Nat := 52

/-- `L2I(c)` (42_alphabet_stream.md R121): the index of a letter code, `none` for every code that is not a letter. -/
def l2i (c : Byte) : Option Nat :=
  if 0x41 ≤ c.toNat ∧ c.toNat ≤ 0x5A then some (c.toNat - 0x41)
  else if 0x61 ≤ c.toNat ∧ c.toNat ≤ 0x7A then some (c.toNat - 0x61 + 26)
  else none

/-- `I2L(i)` for `0 ≤ i ≤ 51` (42_alphabet_stream.md R122). No meaning applies it outside that range. -/
def i2l (i : Nat) : Byte := if i ≤ 25 then BitVec.ofNat 8 (0x41 + i) else BitVec.ofNat 8 (0x61 + (i - 26))

/-- The indices of a text, `none` if a character is not a letter (42_alphabet_stream.md R125, first loop). -/
def letterIndices : List Byte → Option (List Nat)
  | [] => some []
  | c :: cs =>
    match l2i c with
    | none => none
    | some i => (letterIndices cs).map (i :: ·)

end Sys2Proof.Machine
end

