-- ==== Sys2Proof/Machine/Operands.lean ====
section
/-! DEFINITION. The operand forms: registers by name and number, and the input text. Operands are never in the command
word (30_encoding.md R71); each command reads the fixed registers and cells its rule names. -/

namespace Sys2Proof.Machine

/-- The number of an integer register (10_state.md R21). -/
def intRegNumber : IntReg → Nat
  | .opa => 0
  | .opm => 1
  | .keyk => 2
  | .keyb => 3
  | .r0 => 4
  | .r1 => 5
  | .r2 => 6

/-- The number of a control register (10_state.md R25). -/
def ctlRegNumber : CtlReg → Nat
  | .cmd => 0
  | .status => 1
  | .width => 2
  | .len => 3
  | .olen => 4

/-- A read of an integer register, whole (10_state.md R21). -/
def State.readInt (s : State) : IntReg → Int
  | .opa => s.opa
  | .opm => s.opm
  | .keyk => s.keyk
  | .keyb => s.keyb
  | .r0 => s.r0
  | .r1 => s.r1
  | .r2 => s.r2

/-- A read of a control register, whole (10_state.md R25). -/
def State.readCtl (s : State) : CtlReg → Word
  | .cmd => s.cmd
  | .status => s.status
  | .width => s.width
  | .len => s.len
  | .olen => s.olen

/-- The host's write of an integer register: `OPA`, `OPM`, `KEYK`, `KEYB` take the value; a write to `R0`, `R1` or `R2`
is ignored (10_state.md R21, R23). -/
def State.hostWriteInt (s : State) (r : IntReg) (v : Int) : State :=
  match r with
  | .opa => s.setOpa v
  | .opm => s.setOpm v
  | .keyk => s.setKeyk v
  | .keyb => s.setKeyb v
  | .r0 => s
  | .r1 => s
  | .r2 => s

/-- The text operand `TIN[0 .. LEN−1]`, leftmost character first (10_state.md R30, 20_memory.md R52). -/
def State.text (s : State) : List Byte := (List.range s.len.toNat).map s.tinRead

end Sys2Proof.Machine
end

