-- ==== Sys2Proof/Machine/NumberTheory.lean ====
section
/-! DEFINITION. The number theory unit: GCD, EGCD, MINV_BF, MINV_EE (40_number_theory.md R90 to R99). Arithmetic is exact;
`%` and `/` on integers with a positive divisor are the floor modulus and floor division of 00_scope.md R7. -/

namespace Sys2Proof.Machine

/-- The loop of R90 with at most `fuel` turns: `v` strictly decreases, so `fuel = v` turns are enough. -/
def gcdLoop : Nat → Nat → Nat → Nat
  | 0, u, _ => u
  | fuel + 1, u, v => if v = 0 then u else gcdLoop fuel v (u % v)

/-- `gcd(a, b)`, the Euclidean algorithm on absolute values (40_number_theory.md R90). -/
def gcd (a b : Int) : Nat := gcdLoop b.natAbs a.natAbs b.natAbs

/-- The recursion of R92 at most `fuel` deep: the first argument strictly decreases, so `fuel = a` is enough. -/
def egcdLoop : Nat → Nat → Nat → Nat × Int × Int
  | 0, _, m => (m, 0, 1)
  | fuel + 1, a, m =>
    if a = 0 then (m, 0, 1)
    else
      match egcdLoop fuel (m % a) a with
      | (g, x1, y1) => (g, y1 - ((m / a : Nat) : Int) * x1, x1)

/-- `egcd_nn(a, m)` for non-negative operands (40_number_theory.md R92). -/
def egcdNN (a m : Nat) : Nat × Int × Int := egcdLoop a a m

/-- The sign `sa`, `sm` of R93: −1 for a negative operand, else 1. -/
def signOf (a : Int) : Int := if a < 0 then -1 else 1

/-- `egcd(a, m)` for signed operands: the recursion on absolute values with the signs moved onto the coefficients
(40_number_theory.md R93). -/
def egcd (a m : Int) : Nat × Int × Int :=
  match egcdNN a.natAbs m.natAbs with
  | (g, x, y) => (g, signOf a * x, signOf m * y)

/-- The test MINV_BF makes of a candidate (40_number_theory.md R95). -/
def isInverse (num modulus i : Int) : Bool := decide (((num % modulus) * (i % modulus)) % modulus = 1)

/-- The scan of R95 over the last `remaining` of the candidates `0 .. modulus−1`, in increasing order. -/
def minvBfScan (num : Int) (modulus : Nat) : Nat → Option Int
  | 0 => none
  | remaining + 1 =>
    if isInverse num modulus ((modulus - (remaining + 1) : Nat) : Int) then some ((modulus - (remaining + 1) : Nat) : Int)
    else minvBfScan num modulus remaining

/-- `minv_bf(num, modulus)`: the least candidate that passes the test, `none` for "no inverse" (40_number_theory.md R95). -/
def minvBf (num modulus : Int) : Option Int :=
  if modulus ≤ 0 then none else minvBfScan num modulus.toNat modulus.toNat

/-- `minv_ee(num, modulus)`: the inverse through the extended Euclidean algorithm, `none` for "no inverse"
(40_number_theory.md R96). -/
def minvEe (num modulus : Int) : Option Int :=
  if modulus ≤ 0 then none
  else
    match egcd num modulus with
    | (g, x, _) => if g ≠ 1 then none else some ((x % modulus + modulus) % modulus)

/-- GCD (40_number_theory.md R91). -/
def execGcd (s : State) : Host.Outcome State Fault Refusal := succeed (s.setR0 (gcd s.opa s.opm))

/-- EGCD (40_number_theory.md R94). -/
def execEgcd (s : State) : Host.Outcome State Fault Refusal :=
  match egcd s.opa s.opm with
  | (g, x, y) => succeed (((s.setR0 g).setR1 x).setR2 y)

/-- How both inverse commands end: the inverse in `R0`, or `ST_NO_INVERSE` (40_number_theory.md R95, R96). -/
def finishInverse (inv : Option Int) (s : State) : Host.Outcome State Fault Refusal :=
  match inv with
  | some v => succeed (s.setR0 v)
  | none => raise .noInverse s

/-- MINV_BF (40_number_theory.md R95). -/
def execMinvBf (s : State) : Host.Outcome State Fault Refusal := finishInverse (minvBf s.opa s.opm) s

/-- MINV_EE (40_number_theory.md R96). -/
def execMinvEe (s : State) : Host.Outcome State Fault Refusal := finishInverse (minvEe s.opa s.opm) s

end Sys2Proof.Machine
end

