-- ==== Sys2Proof/Machine/Affine.lean ====
section
/-! DEFINITION. The affine transform unit: AFF_ENC, AFF_DEC (41_affine.md R110 to R114). -/

namespace Sys2Proof.Machine

/-- `enc(x, k, b, m) = (k*x + b) mod m` for `m > 0` (41_affine.md R110). -/
def enc (x k b m : Int) : Int := (k * x + b) % m

/-- `(inv * (y − b)) mod m` for `m > 0`, the second half of `dec` (41_affine.md R111). -/
def decWith (inv y b m : Int) : Int := (inv * (y - b)) % m

/-- `dec(y, k, b, m)` for `m > 0`, `none` where the key is not invertible (41_affine.md R111). -/
def dec (y k b m : Int) : Option Int := (minvEe k m).map (fun inv => decWith inv y b m)

/-- AFF_ENC (41_affine.md R110). The key is not checked. -/
def execAffEnc (s : State) : Host.Outcome State Fault Refusal :=
  if s.opm ≤ 0 then raise .invalidModulus s
  else succeed (s.setR0 (enc s.opa s.keyk s.keyb s.opm))

/-- AFF_DEC (41_affine.md R111): the modulus is tested before the key. -/
def execAffDec (s : State) : Host.Outcome State Fault Refusal :=
  if s.opm ≤ 0 then raise .invalidModulus s
  else
    match dec s.opa s.keyk s.keyb s.opm with
    | none => raise .nonInvertibleKey s
    | some x => succeed (s.setR0 x)

end Sys2Proof.Machine
end

