-- ==== Sys2Proof/Machine/Stream.lean ====
section
/-! DEFINITION. STRINGIFY and the stream commands STR_ENC, STR_DEC (42_alphabet_stream.md R124 to R128). -/

namespace Sys2Proof.Machine

/-- The loop of R124 with at most `fuel` turns: the base-52 digits of `v` as letters, least significant first. `v` strictly
decreases, so `fuel = v` turns are enough. -/
def base52Letters : Nat → Nat → List Byte
  | 0, _ => []
  | fuel + 1, v => if v = 0 then [] else i2l (v % alphabetSize) :: base52Letters fuel (v / alphabetSize)

/-- The output text of STRINGIFY for `n ≥ 0` (42_alphabet_stream.md R124). -/
def stringify (n : Nat) : List Byte := base52Letters n n

/-- STRINGIFY (42_alphabet_stream.md R124). -/
def execStringify (s : State) : Host.Outcome State Fault Refusal :=
  if s.opa < 0 then raise .operandRange s
  else if (stringify s.opa.toNat).length > s.cfg.maxLen then raise .resultRange s
  else succeed ((s.writeTout (stringify s.opa.toNat)).setOlen (BitVec.ofNat 32 (stringify s.opa.toNat).length))

/-- How both stream commands end: the indices `p` of the text go letter by letter through `f`, a residue modulo 52, and
back to letters in `TOUT`; `OLEN <- LEN` (42_alphabet_stream.md R125, R126). A text with a character that is not a letter
has no indices. -/
def finishStream (f : Int → Int) (p : Option (List Nat)) (s : State) : Host.Outcome State Fault Refusal :=
  match p with
  | none => raise .invalidChar s
  | some is => succeed ((s.writeTout (is.map (fun i : Nat => i2l (f i).toNat))).setOlen s.len)

/-- STR_ENC (42_alphabet_stream.md R125). The key is not checked. -/
def execStrEnc (s : State) : Host.Outcome State Fault Refusal :=
  if s.len.toNat > s.cfg.maxLen then raise .operandRange s
  else finishStream (fun i => enc i s.keyk s.keyb alphabetSize) (letterIndices s.text) s

/-- STR_DEC (42_alphabet_stream.md R126): the inverse is computed once, before any character is examined. -/
def execStrDec (s : State) : Host.Outcome State Fault Refusal :=
  if s.len.toNat > s.cfg.maxLen then raise .operandRange s
  else
    match minvEe s.keyk alphabetSize with
    | none => raise .nonInvertibleKey s
    | some inv => finishStream (fun i => decWith inv i s.keyb alphabetSize) (letterIndices s.text) s

end Sys2Proof.Machine
end

