-- ==== Sys2Proof/Machine/Block.lean ====
section
/-! DEFINITION. The block encoder BLK_ENC and the block decoder BLK_DEC, stage by stage (43_block_codec.md R140 to R153). -/

namespace Sys2Proof.Machine

/-- The block modulus `M(w)`: the decimal number written as `w` copies of "52" (43_block_codec.md R140). -/
def blockModulus : Nat → Nat
  | 0 => 0
  | w + 1 => blockModulus w * 100 + alphabetSize

/-- The first `n` blocks of `w` letters of `p`. -/
def wholeBlocks (w : Nat) : Nat → List Nat → List (List Nat)
  | 0, _ => []
  | n + 1, p => p.take w :: wholeBlocks w n (p.drop w)

/-- The blocks of the index sequence `p`, left to right; only the leftmost can be short (43_block_codec.md R142). -/
def partition (w : Nat) (p : List Nat) : List (List Nat) :=
  if p.length % w = 0 then wholeBlocks w (p.length / w) p
  else p.take (p.length % w) :: wholeBlocks w (p.length / w) (p.drop (p.length % w))

/-- The value of a block: its indices as two-digit groups, leftmost most significant (43_block_codec.md R143, 20_memory.md
R54). -/
def blockValue : List Nat → Nat
  | [] => 0
  | i :: is => i * 100 ^ is.length + blockValue is

/-- The ciphertext of the encrypted blocks, leftmost most significant, `2*w` digits each; 0 for no block
(43_block_codec.md R145). -/
def joinBlocks (w : Nat) : List Nat → Nat
  | [] => 0
  | e :: es => e * 100 ^ (w * es.length) + joinBlocks w es

/-- The encrypted blocks `E[j]` of the index sequence `p` (43_block_codec.md R142 to R144). -/
def encryptedBlocks (p : List Nat) (k b : Int) (w : Nat) : List Nat :=
  (partition w p).map (fun blk => (enc (blockValue blk) k b (blockModulus w)).toNat)

/-- The ciphertext `C` of the index sequence `p` (43_block_codec.md R142 to R145). -/
def ciphertext (p : List Nat) (k b : Int) (w : Nat) : Nat := joinBlocks w (encryptedBlocks p k b w)

/-- BLK_ENC (43_block_codec.md R146). The key is not checked. -/
def execBlkEnc (s : State) : Host.Outcome State Fault Refusal :=
  if s.len.toNat > s.cfg.maxLen ∨ s.width.toNat > s.cfg.maxWidth then raise .operandRange s
  else if s.width.toNat = 0 then raise .invalidModulus s
  else
    match letterIndices s.text with
    | none => raise .invalidChar s
    | some p =>
      if s.fits (ciphertext p s.keyk s.keyb s.width.toNat) then
        succeed (s.setR0 (ciphertext p s.keyk s.keyb s.width.toNat))
      else raise .resultRange s

/-- `digits10` with at most `fuel` divisions: `n` strictly decreases, so `fuel = n` is enough. -/
def digits10Loop : Nat → Nat → Nat
  | 0, _ => 1
  | fuel + 1, n => if n < 10 then 1 else digits10Loop fuel (n / 10) + 1

/-- The number of decimal digits of `n`, with `digits10(0) = 1` (00_scope.md R8). -/
def digits10 (n : Nat) : Nat := digits10Loop n n

/-- `ceil(p / q)` for `q > 0` (00_scope.md R8). -/
def ceilDiv (p q : Nat) : Nat := (p + q - 1) / q

/-- The number of chunks `nd` of the ciphertext `c` (43_block_codec.md R147). -/
def chunkCount (w c : Nat) : Nat := ceilDiv (digits10 c) (2 * w)

/-- The chunks `Y[0 .. nd−1]` of the ciphertext `c`, left to right (43_block_codec.md R147). -/
def chunks (w c : Nat) : List Nat :=
  (List.range (chunkCount w c)).map (fun j => c / 100 ^ (w * (chunkCount w c - 1 - j)) % 100 ^ w)

/-- The `w` two-digit groups of a decrypted block, most significant first (43_block_codec.md R148). -/
def digitGroups (w d : Nat) : List Nat := (List.range w).map (fun t => d / 100 ^ (w - 1 - t) % 100)

/-- The recovered index sequence `idx[0 .. N−1]` (43_block_codec.md R148), `inv` the inverse of the key. -/
def recoveredIndices (inv b : Int) (w c : Nat) : List Nat :=
  (chunks w c).flatMap (fun y : Nat => digitGroups w (decWith inv y b (blockModulus w)).toNat)

/-- The last `n` elements of a list (43_block_codec.md R149). -/
def lastOf (n : Nat) (l : List Nat) : List Nat := l.drop (l.length - n)

/-- BLK_DEC (43_block_codec.md R150). The inverse is computed once; the length is tested before any chunk is decrypted,
and every recovered group is tested before truncation. -/
def execBlkDec (s : State) : Host.Outcome State Fault Refusal :=
  if s.opa < 0 ∨ s.len.toNat > s.cfg.maxLen ∨ s.width.toNat > s.cfg.maxWidth then raise .operandRange s
  else if s.width.toNat = 0 then raise .invalidModulus s
  else
    match minvEe s.keyk (blockModulus s.width.toNat) with
    | none => raise .nonInvertibleKey s
    | some inv =>
      if s.len.toNat > chunkCount s.width.toNat s.opa.toNat * s.width.toNat then raise .shortCiphertext s
      else if (recoveredIndices inv s.keyb s.width.toNat s.opa.toNat).any (fun i => decide (i > 51)) then
        raise .indexRange s
      else
        succeed ((s.writeTout
          ((lastOf s.len.toNat (recoveredIndices inv s.keyb s.width.toNat s.opa.toNat)).map i2l)).setOlen s.len)

end Sys2Proof.Machine
end

