-- ==== Sys2Proof/Machine/Dispatch.lean ====
section
/-! DEFINITION. One arm per command of the opcode map (30_encoding.md R72). -/

namespace Sys2Proof.Machine

def exec (i : Instr) (s : State) : Host.Outcome State Fault Refusal :=
  match i with
  | .gcd => Sys2Proof.Machine.execGcd s
  | .egcd => Sys2Proof.Machine.execEgcd s
  | .minvBf => Sys2Proof.Machine.execMinvBf s
  | .minvEe => Sys2Proof.Machine.execMinvEe s
  | .affEnc => Sys2Proof.Machine.execAffEnc s
  | .affDec => Sys2Proof.Machine.execAffDec s
  | .stringify => Sys2Proof.Machine.execStringify s
  | .strEnc => Sys2Proof.Machine.execStrEnc s
  | .strDec => Sys2Proof.Machine.execStrDec s
  | .blkEnc => Sys2Proof.Machine.execBlkEnc s
  | .blkDec => Sys2Proof.Machine.execBlkDec s

end Sys2Proof.Machine
end

