-- ==== Sys2Proof/Machine/HostPort.lean ====
section
/-! DEFINITION. The host's accesses other than a command: reads, and writes of everything but `CMD` (10_state.md R21 to R28,
20_memory.md R50 to R59). -/

namespace Sys2Proof.Machine

/-- The host's write of an integer register. A value the register cannot hold is no step of the machine
(10_state.md R23); the model refuses it for `R0`, `R1`, `R2` too (log 5). -/
def hostWrInt (r : IntReg) (v : Int) (s : State) : Host.Outcome State Fault Refusal :=
  if s.fits v then .next (s.hostWriteInt r v) else .refused .unrepresentable

/-- The host's write of `WIDTH` or `LEN`; writes of `STATUS` and `OLEN` are ignored (10_state.md R25, 20_memory.md R57).
A write of `CMD` stores the word (10_state.md R26) and executes the command, which `step` adds. -/
def State.hostWriteCtl (s : State) (c : CtlReg) (w : Word) : State :=
  match c with
  | .cmd => s.setCmd w
  | .status => s
  | .width => s.setWidth w
  | .len => s.setLen w
  | .olen => s

/-- The access `k` of cell `i` of a text space: a cell at or above `MAX_LEN` does not exist (log 6). -/
def withCell (i : Nat) (s k : State) : Host.Outcome State Fault Refusal :=
  if i < s.cfg.maxLen then .next k else .fault .noSuchCell

/-- The host's write of a cell of `TIN` (20_memory.md R50). -/
def hostWrTin (i : Nat) (v : Byte) (s : State) : Host.Outcome State Fault Refusal :=
  withCell i s (s.setTin (s.tin.set i v))

/-- The host's write of a cell of `TOUT`, which is ignored (20_memory.md R50, R57). -/
def hostWrTout (i : Nat) (_v : Byte) (s : State) : Host.Outcome State Fault Refusal := withCell i s s

/-- A host read returns `v`; it has no effect on the engine (20_memory.md R57). The value is put in the host's record. -/
def State.observe (s : State) (v : HostValue) : State := s.setReads (v :: s.reads)

/-- The host's read of an integer register (10_state.md R21). -/
def hostRdInt (r : IntReg) (s : State) : Host.Outcome State Fault Refusal := .next (s.observe (.int (s.readInt r)))

/-- The host's read of a control register (10_state.md R25, R26). -/
def hostRdCtl (c : CtlReg) (s : State) : Host.Outcome State Fault Refusal := .next (s.observe (.word (s.readCtl c)))

/-- The host's read of a cell of `TIN` (20_memory.md R50, R52). -/
def hostRdTin (i : Nat) (s : State) : Host.Outcome State Fault Refusal := withCell i s (s.observe (.code (s.tinRead i)))

/-- The host's read of a cell of `TOUT` (20_memory.md R50). -/
def hostRdTout (i : Nat) (s : State) : Host.Outcome State Fault Refusal := withCell i s (s.observe (.code (s.toutRead i)))

end Sys2Proof.Machine
end

