-- ==== Sys2Proof/Machine/Script.lean ====
section
/-! DEFINITION. The host script (30_encoding.md R77, R78): its lines and pseudo-lines as lists of host accesses, and the five
entry points of the source as scripts. It is notation for what a host does, not an interface of the engine. -/

namespace Sys2Proof.Machine

/-- `cmd <MNEMONIC>`: write the command word of a command to `CMD` (R77). -/
def scriptCmd (i : Instr) : HostAccess := .wrCtl .cmd (encode i)

/-- `cmdw <word>`: write an arbitrary word to `CMD` (R77). -/
def scriptCmdWord (w : Word) : HostAccess := .wrCtl .cmd w

/-- The writes `wrc i, s[i]` of a text from cell `i` on, in increasing `i` (R78). -/
def scriptCells (i : Nat) : List Byte → List HostAccess
  | [] => []
  | c :: cs => .wrTin i c :: scriptCells (i + 1) cs

/-- `text "<s>"` (R78). -/
def scriptText (t : List Byte) : List HostAccess := .wrCtl .len (BitVec.ofNat 32 t.length) :: scriptCells 0 t

/-- `key <k>, <b>` (R78). -/
def scriptKey (k b : Int) : List HostAccess := [.wrInt .keyk k, .wrInt .keyb b]

/-- `rdtext` (R78), for the value `n` that its `rd OLEN` returns. -/
def scriptRdText (n : Nat) : List HostAccess := .rdCtl .olen :: (List.range n).map HostAccess.rdTout

/-- `encrypt_caesar_cipher(t, k, b)` (R78), for the value `n` that the `rd OLEN` of its `rdtext` returns. -/
def scriptEncryptCaesar (t : List Byte) (k b : Int) (n : Nat) : List HostAccess :=
  scriptText t ++ scriptKey k b ++ [scriptCmd .strEnc, .rdCtl .status] ++ scriptRdText n

/-- `decrypt_caesar_cipher(t, k, b)` (R78), for the value `n` that its `rd OLEN` returns. -/
def scriptDecryptCaesar (t : List Byte) (k b : Int) (n : Nat) : List HostAccess :=
  scriptText t ++ scriptKey k b ++ [scriptCmd .strDec, .rdCtl .status] ++ scriptRdText n

/-- `encrypt_block_cipher(t, k, b, w)` (R78). -/
def scriptEncryptBlock (t : List Byte) (k b : Int) (w : Word) : List HostAccess :=
  scriptText t ++ scriptKey k b ++ [.wrCtl .width w, scriptCmd .blkEnc, .rdCtl .status, .rdInt .r0]

/-- `decrypt_block_cipher(C, k, b, w, L)` (R78), for the value `n` that its `rd OLEN` returns. -/
def scriptDecryptBlock (c : Int) (k b : Int) (w l : Word) (n : Nat) : List HostAccess :=
  .wrInt .opa c :: scriptKey k b ++ [.wrCtl .width w, .wrCtl .len l, scriptCmd .blkDec, .rdCtl .status] ++ scriptRdText n

/-- `stringify(n)` (R78), for the value `m` that its `rd OLEN` returns. -/
def scriptStringify (n : Int) (m : Nat) : List HostAccess :=
  [.wrInt .opa n, scriptCmd .stringify, .rdCtl .status] ++ scriptRdText m

end Sys2Proof.Machine
end

