-- ==== Sys2Proof/Machine/Access.lean ====
section
/-! DEFINITION. One host access, a command among them, and what a step does with the host's stream (20_memory.md R56). -/

namespace Sys2Proof.Machine

/-- A write of `w` to `CMD`: store it, then execute the command it encodes, or end with `ST_ILLEGAL_CMD`, as one
indivisible step (10_state.md R26, 30_encoding.md R74, R75). -/
def issue (w : Word) (s : State) : Host.Outcome State Fault Refusal :=
  match decode w with
  | some i => exec i (s.hostWriteCtl .cmd w)
  | none => raise .illegalCmd (s.hostWriteCtl .cmd w)

/-- The host's write of a control register; a write of `CMD` is a command (10_state.md R25, R26). -/
def hostWrCtl (c : CtlReg) (w : Word) (s : State) : Host.Outcome State Fault Refusal :=
  match c with
  | .cmd => issue w s
  | .status => .next (s.hostWriteCtl .status w)
  | .width => .next (s.hostWriteCtl .width w)
  | .len => .next (s.hostWriteCtl .len w)
  | .olen => .next (s.hostWriteCtl .olen w)

/-- One host access, whole (20_memory.md R56, R57). -/
def access (a : HostAccess) (s : State) : Host.Outcome State Fault Refusal :=
  match a with
  | .wrInt r v => hostWrInt r v s
  | .wrCtl c w => hostWrCtl c w s
  | .wrTin i v => hostWrTin i v s
  | .wrTout i v => hostWrTout i v s
  | .rdInt r => hostRdInt r s
  | .rdCtl c => hostRdCtl c s
  | .rdTin i => hostRdTin i s
  | .rdTout i => hostRdTout i s

/-- The next host access is taken from the stream and performed; with none pending the engine is idle and holds its state
(60_exceptions.md R184, log 2). -/
def nextAccess (s : State) : Host.Outcome State Fault Refusal :=
  match s.script with
  | [] => .next s
  | a :: rest => access a (s.setScript rest)

/-- The host access that writes the command word whose bits are `w`, numbered as spec/opcode_table.json numbers them. -/
def tableAccess (nbits w : Nat) : HostAccess := .wrCtl .cmd (BitVec.ofNat 32 (w % 2 ^ nbits))

end Sys2Proof.Machine
end

