-- ==== Sys2Proof/Machine/Step.lean ====
section
/-! DEFINITION. One step, and how a command is placed where the next step takes it. -/

namespace Sys2Proof.Machine

/-- One step of the machine: the next event of the one stream of host accesses and commands (20_memory.md R56). -/
def step (s : State) : Host.Outcome State Fault Refusal := nextAccess s

/-- The machine whose next host access writes the command word `w` to `CMD` (10_state.md R24): the engine fetches nothing,
so a command is placed by putting its write at the head of the host's stream (log 2). -/
def State.withFetchWord (s : State) (nbits w : Nat) : State := s.setScript (tableAccess nbits w :: s.script)

end Sys2Proof.Machine
end

