-- ==== Sys2Proof/Safety.lean ====
section
/-! DEFINITION. The terms the claims are stated in: what every state of the engine satisfies, which host streams are defined,
what a command reads and writes, and the closed forms in which the spec writes its text and block rules. -/

namespace Sys2Proof

open Sys2Proof.Machine

/-! ### Safe states and safe host streams -/

/-- What the spec says of every state of the engine: the parameters meet their constraints (00_scope.md R5), each integer
register holds a representable value (10_state.md R21), `STATUS` holds a code from 0 to 9 and `OLEN` at most `MAX_LEN`
(R25), and each text space is in canonical form with only existing cells written (20_memory.md R50). -/
structure EngineInv (s : State) : Prop where
  cfg_wf : s.cfg.wf = true
  ints_fit : ∀ r : IntReg, s.fits (s.readInt r) = true
  status_legal : s.status.toNat ≤ 9
  olen_le : s.olen.toNat ≤ s.cfg.maxLen
  tin_wf : s.tin.wf
  tin_below : s.tin.below s.cfg.maxLen
  tout_wf : s.tout.wf
  tout_below : s.tout.below s.cfg.maxLen

/-- Every pending host access is a step of the machine (93_implementation_defined.md U11). -/
def ScriptWf (s : State) : Prop := ∀ a ∈ s.script, a.wf s.cfg = true

/-- The location a host write names, as (space, index): integer registers, control registers, `TIN`, `TOUT`
(20_memory.md R58); `none` for a read. -/
def writeTarget : HostAccess → Option (Nat × Nat)
  | .wrInt r _ => some (0, intRegNumber r)
  | .wrCtl c _ => some (1, ctlRegNumber c)
  | .wrTin i _ => some (2, i)
  | .wrTout i _ => some (3, i)
  | .rdInt _ => none
  | .rdCtl _ => none
  | .rdTin _ => none
  | .rdTout _ => none

/-! ### What a command reads and writes (10_state.md R22, R28, R30) -/

/-- Two states hold the same input text: as many characters, and the same ones. -/
def SameText (s s' : State) : Prop := s.len = s'.len ∧ ∀ j < s.len.toNat, s.tinRead j = s'.tinRead j

/-- The two states agree on everything the command's rule names as its inputs. -/
def SameInputs (i : Instr) (s s' : State) : Prop :=
  match i with
  | .gcd => s.opa = s'.opa ∧ s.opm = s'.opm
  | .egcd => s.opa = s'.opa ∧ s.opm = s'.opm
  | .minvBf => s.opa = s'.opa ∧ s.opm = s'.opm
  | .minvEe => s.opa = s'.opa ∧ s.opm = s'.opm
  | .affEnc => s.opa = s'.opa ∧ s.opm = s'.opm ∧ s.keyk = s'.keyk ∧ s.keyb = s'.keyb
  | .affDec => s.opa = s'.opa ∧ s.opm = s'.opm ∧ s.keyk = s'.keyk ∧ s.keyb = s'.keyb
  | .stringify => s.opa = s'.opa
  | .strEnc => SameText s s' ∧ s.keyk = s'.keyk ∧ s.keyb = s'.keyb
  | .strDec => SameText s s' ∧ s.keyk = s'.keyk ∧ s.keyb = s'.keyb
  | .blkEnc => SameText s s' ∧ s.keyk = s'.keyk ∧ s.keyb = s'.keyb ∧ s.width = s'.width
  | .blkDec => s.opa = s'.opa ∧ s.keyk = s'.keyk ∧ s.keyb = s'.keyb ∧ s.width = s'.width ∧ s.len = s'.len

/-- Two states hold the same output text. -/
def SameOutputText (t t' : State) : Prop := t.olen = t'.olen ∧ ∀ j < t.olen.toNat, t.toutRead j = t'.toutRead j

/-- The two states agree on everything the command writes beside `STATUS` when it ends with `ST_OK`. -/
def SameOutputs (i : Instr) (t t' : State) : Prop :=
  match i with
  | .gcd => t.r0 = t'.r0
  | .egcd => t.r0 = t'.r0 ∧ t.r1 = t'.r1 ∧ t.r2 = t'.r2
  | .minvBf => t.r0 = t'.r0
  | .minvEe => t.r0 = t'.r0
  | .affEnc => t.r0 = t'.r0
  | .affDec => t.r0 = t'.r0
  | .stringify => SameOutputText t t'
  | .strEnc => SameOutputText t t'
  | .strDec => SameOutputText t t'
  | .blkEnc => t.r0 = t'.r0
  | .blkDec => SameOutputText t t'

/-- The status codes a command can end with (60_exceptions.md R172). -/
def possibleCodes : Instr → List Nat
  | .gcd => [0]
  | .egcd => [0]
  | .minvBf => [0, 4]
  | .minvEe => [0, 4]
  | .affEnc => [0, 3]
  | .affDec => [0, 2, 3]
  | .stringify => [0, 6, 7]
  | .strEnc => [0, 1, 6]
  | .strDec => [0, 1, 2, 6]
  | .blkEnc => [0, 1, 3, 6, 7]
  | .blkDec => [0, 2, 3, 6, 8, 9]

/-! ### Closed forms of the block rules -/

/-- `M(w) = 52 * (100^w − 1) / 99` (43_block_codec.md R140). -/
def modulusForm (w : Nat) : Nat := 52 * (100 ^ w - 1) / 99

/-- `n = ceil(L / w)`, the number of blocks (R142). -/
def blockCount (l w : Nat) : Nat := (l + w - 1) / w

/-- The position of the first letter of block `j` (R142). -/
def blockStart (l w j : Nat) : Nat :=
  if l % w = 0 then j * w else if j = 0 then 0 else l % w + (j - 1) * w

/-- The number of letters of block `j` (R142). -/
def blockSize (l w j : Nat) : Nat := if l % w ≠ 0 ∧ j = 0 then l % w else w

/-- `B[j]`, the value of block `j` of the indices `p 0 .. p (l−1)` (R143). -/
def blockForm (p : Nat → Nat) (l w j : Nat) : Nat :=
  ∑ t ∈ Finset.range (blockSize l w j), p (blockStart l w j + t) * 100 ^ (blockSize l w j - 1 - t)

/-- `E[j]`, the encrypted block `j` (R144). -/
def encryptedForm (p : Nat → Nat) (k b : Int) (l w j : Nat) : Nat :=
  ((k * blockForm p l w j + b) % modulusForm w).toNat

/-- `C`, the ciphertext (R145). -/
def ciphertextForm (p : Nat → Nat) (k b : Int) (l w : Nat) : Nat :=
  ∑ j ∈ Finset.range (blockCount l w), encryptedForm p k b l w j * 100 ^ (w * (blockCount l w - 1 - j))

/-- `nd = ceil(digits10(C) / (2*w))`, the number of chunks (R147); `digits10(0) = 1` (00_scope.md R8). -/
def chunkForm (c w : Nat) : Nat := (max 1 (Nat.digits 10 c).length + 2 * w - 1) / (2 * w)

/-- `idx[u]`, the recovered index at position `u` (R147, R148), `inv` the inverse of the key. -/
def indexForm (inv b : Int) (c w u : Nat) : Nat :=
  ((inv * ((c / 100 ^ (w * (chunkForm c w - 1 - u / w)) % 100 ^ w : Nat) - b)) % modulusForm w).toNat
    / 100 ^ (w - 1 - u % w) % 100

end Sys2Proof
end

