-- ==== Sys2Proof/Certificates/Slice0/Obligations.lean ====
section
/-! DEFINITION. The statements. Each docstring names the rule of the spec it formalises. A state with several fields written
is the state a rule describes: what is not written is what the rule leaves unchanged. -/

open Sys2Proof Sys2Proof.Machine

/-! ### Reset, decoding, one step -/

/-- 10_state.md R32: what reset leaves. A text cell not written since reset holds an unspecified value, the free value of
log 4. The implementation parameters (log 1) and the host's stream (log 2, log 3) are no part of the rule. -/
def Obligations.ResetLeavesZerosAndUnwrittenCells : Prop :=
  (∀ r : IntReg, State.reset.readInt r = 0) ∧ (∀ c : CtlReg, State.reset.readCtl c = 0) ∧
    State.reset.status = Status.ok.word ∧ State.reset.text = [] ∧ State.reset.olen.toNat = 0 ∧
    ∀ i, State.reset.tin.get? i = none ∧ State.reset.tout.get? i = none ∧
      State.reset.tinRead i = Config.unwrittenTin i ∧ State.reset.toutRead i = Config.unwrittenTout i

/-- 30_encoding.md R72: some of the table's words, written out, and two words beside them. -/
def Obligations.SampleWordsDecodeAsTheTableSays : Prop :=
  decode 0x00000001#32 = some .gcd ∧ decode 0x00000004#32 = some .minvEe ∧ decode 0x00000011#32 = some .affDec ∧
    decode 0x00000020#32 = some .stringify ∧ decode 0x00000031#32 = some .strDec ∧ decode 0x00000040#32 = some .blkEnc ∧
    decode 0x00000101#32 = none ∧ decode 0x00000000#32 = none

/-- 30_encoding.md R72: a word decodes to a command exactly when it is that command's word, so decoding and encoding are
inverse to each other. -/
def Obligations.DecodeAndEncodeAgree : Prop :=
  ∀ (w : Word) (i : Instr), decode w = some i ↔ w = encode i

/-- 30_encoding.md R74: a write to `CMD` executes the command whose word it is, and every other word ends with
`ST_ILLEGAL_CMD`; the words are those of R72. -/
def Obligations.EveryWordIsACommandOrReserved : Prop :=
  ∀ (s : State) (rest : List HostAccess) (w : Word),
    (∀ e ∈ [(0x00000001#32, Instr.gcd), (0x00000002#32, .egcd), (0x00000003#32, .minvBf), (0x00000004#32, .minvEe),
        (0x00000010#32, .affEnc), (0x00000011#32, .affDec), (0x00000020#32, .stringify), (0x00000030#32, .strEnc),
        (0x00000031#32, .strDec), (0x00000040#32, .blkEnc), (0x00000041#32, .blkDec)],
      e.1 = w → step { s with script := .wrCtl .cmd w :: rest } = exec e.2 { s with script := rest, cmd := w }) ∧
    (w ∉ [0x00000001#32, 0x00000002#32, 0x00000003#32, 0x00000004#32, 0x00000010#32, 0x00000011#32, 0x00000020#32,
        0x00000030#32, 0x00000031#32, 0x00000040#32, 0x00000041#32] →
      step { s with script := .wrCtl .cmd w :: rest } = .next { s with script := rest, cmd := w, status := 5 })

/-- 30_encoding.md R75: the reserved words, and what writing one does: it is stored in `CMD`, `STATUS` becomes 5, and
nothing else changes. -/
def Obligations.ReservedWordSetsIllegalCommand : Prop :=
  ∀ (s : State) (rest : List HostAccess) (w : Word),
    (w.toNat / 256 ≠ 0 ∨ w.toNat = 0x00 ∨ (0x05 ≤ w.toNat ∧ w.toNat ≤ 0x0F) ∨ (0x12 ≤ w.toNat ∧ w.toNat ≤ 0x1F) ∨
        (0x21 ≤ w.toNat ∧ w.toNat ≤ 0x2F) ∨ (0x32 ≤ w.toNat ∧ w.toNat ≤ 0x3F) ∨ (0x42 ≤ w.toNat ∧ w.toNat ≤ 0xFF)) →
      step { s with script := .wrCtl .cmd w :: rest } = .next { s with script := rest, cmd := w, status := 5 }

/-- 10_state.md R26: a step whose host access writes a word to `CMD` that decodes to `i` runs `i` in the state in which the
word is stored in `CMD`. That the host's stream is a list in the state, from which the access is taken, is the model's
choice (log 2). -/
def Obligations.StepRunsTheDecodedCommand : Prop :=
  ∀ (s : State) (rest : List HostAccess) (w : Word) (i : Instr), decode w = some i →
    step { s with script := .wrCtl .cmd w :: rest } = exec i { s with script := rest, cmd := w }

/-- 60_exceptions.md R184: between commands the engine is idle and holds its state. That a step without a pending host
access is the idle engine is the model's choice (log 2). -/
def Obligations.IdleEngineHoldsItsState : Prop :=
  ∀ s : State, step { s with script := [] } = .next { s with script := [] }

/-- 70_reset_and_hazards.md R192, 95_test_vectors.md P5: every command issued immediately after reset, whatever the
parameters of the machine. -/
def Obligations.EveryCommandIsDefinedAfterReset : Prop :=
  ∀ (c : Config) (i : Instr),
    step ({ State.reset with cfg := c }.withFetchWord 32 (encode i).toNat) =
      match i with
      | .gcd => .next { State.reset with cfg := c, cmd := 0x01, status := 0 }
      | .egcd => .next { State.reset with cfg := c, cmd := 0x02, status := 0, r2 := 1 }
      | .minvBf => .next { State.reset with cfg := c, cmd := 0x03, status := 4 }
      | .minvEe => .next { State.reset with cfg := c, cmd := 0x04, status := 4 }
      | .affEnc => .next { State.reset with cfg := c, cmd := 0x10, status := 3 }
      | .affDec => .next { State.reset with cfg := c, cmd := 0x11, status := 3 }
      | .stringify => .next { State.reset with cfg := c, cmd := 0x20, status := 0 }
      | .strEnc => .next { State.reset with cfg := c, cmd := 0x30, status := 0 }
      | .strDec => .next { State.reset with cfg := c, cmd := 0x31, status := 2 }
      | .blkEnc => .next { State.reset with cfg := c, cmd := 0x40, status := 3 }
      | .blkDec => .next { State.reset with cfg := c, cmd := 0x41, status := 3 }

/-! ### The host's accesses -/

/-- 10_state.md R23, R21: an integer write stores the value in `OPA`, `OPM`, `KEYK` or `KEYB` and is ignored for `R0`, `R1`,
`R2`; a value outside `−IMAX .. IMAX` is no step of the machine. Refusing it for `R0`, `R1` and `R2` too is the model's
reading (log 5). -/
def Obligations.HostIntegerWriteStoresOrIsRefused : Prop :=
  ∀ (s : State) (rest : List HostAccess) (v : Int),
    ((∀ n, s.cfg.intBits = .finite n → -(2 ^ (n - 1) - 1) ≤ v ∧ v ≤ 2 ^ (n - 1) - 1) →
      step { s with script := .wrInt .opa v :: rest } = .next { s with script := rest, opa := v } ∧
      step { s with script := .wrInt .opm v :: rest } = .next { s with script := rest, opm := v } ∧
      step { s with script := .wrInt .keyk v :: rest } = .next { s with script := rest, keyk := v } ∧
      step { s with script := .wrInt .keyb v :: rest } = .next { s with script := rest, keyb := v } ∧
      step { s with script := .wrInt .r0 v :: rest } = .next { s with script := rest } ∧
      step { s with script := .wrInt .r1 v :: rest } = .next { s with script := rest } ∧
      step { s with script := .wrInt .r2 v :: rest } = .next { s with script := rest }) ∧
    (∀ (n : Nat) (r : IntReg), s.cfg.intBits = .finite n → v < -(2 ^ (n - 1) - 1) ∨ 2 ^ (n - 1) - 1 < v →
      step { s with script := .wrInt r v :: rest } = .refused .unrepresentable)

/-- 10_state.md R25, 20_memory.md R57: `WIDTH` and `LEN` take the written word; writes of `STATUS`, `OLEN` and `TOUT` are
ignored without any status change. -/
def Obligations.HostControlWritesStoreOrAreIgnored : Prop :=
  ∀ (s : State) (rest : List HostAccess) (w : Word) (c : Byte) (j : Nat),
    step { s with script := .wrCtl .width w :: rest } = .next { s with script := rest, width := w } ∧
    step { s with script := .wrCtl .len w :: rest } = .next { s with script := rest, len := w } ∧
    step { s with script := .wrCtl .status w :: rest } = .next { s with script := rest } ∧
    step { s with script := .wrCtl .olen w :: rest } = .next { s with script := rest } ∧
    (j < s.cfg.maxLen → step { s with script := .wrTout j c :: rest } = .next { s with script := rest })

/-- 20_memory.md R57, 10_state.md R21, R25: a host read of a register returns the value it holds, a host read of a text cell
the code in it, and none has an effect on the engine. The list of returned values is the model's own field (log 3). -/
def Obligations.HostReadReturnsTheStoredValue : Prop :=
  ∀ (s : State) (rest : List HostAccess) (j : Nat),
    step { s with script := .rdInt .opa :: rest } = .next { s with script := rest, reads := .int s.opa :: s.reads } ∧
    step { s with script := .rdInt .opm :: rest } = .next { s with script := rest, reads := .int s.opm :: s.reads } ∧
    step { s with script := .rdInt .keyk :: rest } = .next { s with script := rest, reads := .int s.keyk :: s.reads } ∧
    step { s with script := .rdInt .keyb :: rest } = .next { s with script := rest, reads := .int s.keyb :: s.reads } ∧
    step { s with script := .rdInt .r0 :: rest } = .next { s with script := rest, reads := .int s.r0 :: s.reads } ∧
    step { s with script := .rdInt .r1 :: rest } = .next { s with script := rest, reads := .int s.r1 :: s.reads } ∧
    step { s with script := .rdInt .r2 :: rest } = .next { s with script := rest, reads := .int s.r2 :: s.reads } ∧
    step { s with script := .rdCtl .cmd :: rest } = .next { s with script := rest, reads := .word s.cmd :: s.reads } ∧
    step { s with script := .rdCtl .status :: rest } = .next { s with script := rest, reads := .word s.status :: s.reads } ∧
    step { s with script := .rdCtl .width :: rest } = .next { s with script := rest, reads := .word s.width :: s.reads } ∧
    step { s with script := .rdCtl .len :: rest } = .next { s with script := rest, reads := .word s.len :: s.reads } ∧
    step { s with script := .rdCtl .olen :: rest } = .next { s with script := rest, reads := .word s.olen :: s.reads } ∧
    (j < s.cfg.maxLen → step { s with script := .rdTin j :: rest } =
      .next { s with script := rest, reads := .code (s.tinRead j) :: s.reads }) ∧
    (j < s.cfg.maxLen → step { s with script := .rdTout j :: rest } =
      .next { s with script := rest, reads := .code (s.toutRead j) :: s.reads })

/-- 20_memory.md R52: a host write of a `TIN` cell is what is read from it afterwards; every other cell and all the rest of
the state keep their values. A cell never written reads as the free value of log 4. -/
def Obligations.TinReadsBackWhatTheHostWrote : Prop :=
  ∀ (s : State) (rest : List HostAccess) (j : Nat) (c : Byte), j < s.cfg.maxLen →
    ∃ m : Memory, step { s with script := .wrTin j c :: rest } = .next { s with script := rest, tin := m } ∧
      { s with tin := m }.tinRead j = c ∧ (∀ k, k ≠ j → { s with tin := m }.tinRead k = s.tinRead k) ∧
      ∀ k, s.tin.get? k = none → s.tinRead k = Config.unwrittenTin k

/-- 93_implementation_defined.md U11: a host access of a cell at or above `MAX_LEN` is no step of the machine. That the model
answers a fault is its own choice (log 6). -/
def Obligations.MissingCellFaults : Prop :=
  ∀ (s : State) (rest : List HostAccess) (j : Nat) (c : Byte), s.cfg.maxLen ≤ j →
    step { s with script := .wrTin j c :: rest } = .fault .noSuchCell ∧
    step { s with script := .wrTout j c :: rest } = .fault .noSuchCell ∧
    step { s with script := .rdTin j :: rest } = .fault .noSuchCell ∧
    step { s with script := .rdTout j :: rest } = .fault .noSuchCell

/-- 70_reset_and_hazards.md R202, R193: the host's writes before a command have no order: two writes of different locations,
neither of them `CMD`, leave the same state either way round. The premise on `TIN` is the canonical form, which every
step keeps. -/
def Obligations.HostWritesToDifferentLocationsCommute : Prop :=
  ∀ (s : State) (a b : HostAccess), s.tin.wf → a.wf s.cfg = true → b.wf s.cfg = true →
    writeTarget a ≠ none → writeTarget b ≠ none → writeTarget a ≠ writeTarget b →
    writeTarget a ≠ some (1, 0) → writeTarget b ≠ some (1, 0) →
      ∃ t, core.run 2 { s with script := [a, b] } = .next t ∧ core.run 2 { s with script := [b, a] } = .next t

/-- 93_implementation_defined.md U11, 60_exceptions.md R174: a stream of defined host accesses, commands of any word among
them, never stops the machine: every run of any length answers a next state. -/
def Obligations.DefinedHostStreamNeverStops : Prop :=
  ∀ (k : Nat) (s : State), ScriptWf s → ∃ t : State, core.run k s = .next t ∧ ScriptWf t

/-- 30_encoding.md R78: the script of `encrypt_caesar_cipher` run to its end, `rdtext` included, leaves the text encrypted
letter by letter and its length, and the host has read `STATUS` 0, then the length from `OLEN`, then the encrypted letters
in increasing position. The host's stream and the list of returned values, the latest first, are the model's choice
(log 2, log 3). -/
def Obligations.CaesarScriptEncryptsItsText : Prop :=
  ∀ (s : State) (txt : List Byte) (k b : Int) (p : Nat → Nat),
    txt.length ≤ s.cfg.maxLen → s.cfg.maxLen < 2 ^ 32 → s.fits k = true → s.fits b = true →
    (∀ j (h : j < txt.length), l2i txt[j] = some (p j)) →
      ∃ t : State, core.run (scriptEncryptCaesar txt k b txt.length).length
          { s with script := scriptEncryptCaesar txt k b txt.length } = .next t ∧
        t.script = [] ∧ t.status = 0 ∧ t.olen.toNat = txt.length ∧
        (∀ j < txt.length, t.toutRead j = i2l ((k * p j + b) % 52).toNat) ∧
        t.reads = ((List.range txt.length).map (fun j => .code (i2l ((k * p j + b) % 52).toNat))).reverse ++
          .word (BitVec.ofNat 32 txt.length) :: .word 0 :: s.reads

/-! ### The invariant -/

/-- The invariant holds after reset, for the parameters `Config.default`, which are the model's choice (log 1). -/
def Obligations.ResetMeetsTheInvariant : Prop := EngineInv State.reset

/-- Every step keeps the invariant: the parameters' constraints, representable integer registers (10_state.md R21), a status
code from 0 to 9 and `OLEN` at most `MAX_LEN` (R25), text spaces in canonical form with existing cells only. -/
def Obligations.EveryStepKeepsTheInvariant : Prop :=
  ∀ s t : State, EngineInv s → step s = .next t → EngineInv t

/-! ### How commands end -/

/-- 10_state.md R27, 60_exceptions.md R170, R172: every command ends, and with one of the codes R172 allows it. -/
def Obligations.EveryCommandEndsWithAPossibleCode : Prop :=
  ∀ (i : Instr) (s : State), ∃ t : State, exec i s = .next t ∧ t.status.toNat ∈ possibleCodes i

/-- 60_exceptions.md R174: a command that ends with another code than `ST_OK`, and a write of a reserved word, change exactly
`CMD` and `STATUS`. -/
def Obligations.FailureChangesOnlyCmdAndStatus : Prop :=
  ∀ (s t : State) (rest : List HostAccess) (w : Word),
    step { s with script := .wrCtl .cmd w :: rest } = .next t → t.status ≠ 0 →
      t = { s with script := rest, cmd := w, status := t.status }

/-- 60_exceptions.md R175: a failed command issued again with unchanged inputs, at once or in any later state of the same
engine, fails again with the same code and changes nothing but `STATUS`. The engine never retries by itself: with no host
access pending it holds the state the failure left, however long. That steps without a pending access are the idle engine
is the model's choice (log 2). -/
def Obligations.FailedCommandFailsAgain : Prop :=
  ∀ (i : Instr) (s t : State), exec i s = .next t → t.status ≠ 0 →
    (∀ u : State, u.cfg = s.cfg → SameInputs i s u → exec i u = .next { u with status := t.status }) ∧
    exec i t = .next t ∧ ∀ k : Nat, core.run k { t with script := [] } = .next { t with script := [] }

/-- 60_exceptions.md R176, 10_state.md R27: a failure leaves no lasting mark. What a command does is independent of the
`STATUS` an earlier command left, which it replaces. -/
def Obligations.StatusOfEarlierCommandsIsReplaced : Prop :=
  ∀ (i : Instr) (s : State) (w : Word), exec i { s with status := w } = exec i s

/-- 10_state.md R20: the outcome of a command, its status and every value it writes, is a function of its inputs. -/
def Obligations.OutcomeDependsOnlyOnTheInputs : Prop :=
  ∀ (i : Instr) (s s' : State), s.cfg = s'.cfg → SameInputs i s s' →
    ∃ t t' : State, exec i s = .next t ∧ exec i s' = .next t' ∧ t.status = t'.status ∧
      (t.status = 0 → SameOutputs i t t')

/-- 70_reset_and_hazards.md R195, R202: results do not feed operands and a command never reads what it writes, so issuing a
command again changes nothing more. The premise on `TOUT` is the canonical form, which every step keeps. -/
def Obligations.RepeatedCommandChangesNothingMore : Prop :=
  ∀ (i : Instr) (s t : State), s.tout.wf → exec i s = .next t → exec i t = .next t

/-- 10_state.md R22, R28, 20_memory.md R50, R53: the frame of every command. No command changes an operand register, `CMD`,
`WIDTH`, `LEN`, a cell of `TIN`, or the model's own fields; only EGCD changes `R1` and `R2`; the text commands do not
change `R0`, the others change neither `OLEN` nor any cell of `TOUT`; the text commands change no cell at `OLEN` or
beyond. -/
def Obligations.CommandsChangeOnlyTheirOutputs : Prop :=
  ∀ (i : Instr) (s t : State), s.cfg.wf = true → exec i s = .next t →
    (t.cfg = s.cfg ∧ t.opa = s.opa ∧ t.opm = s.opm ∧ t.keyk = s.keyk ∧ t.keyb = s.keyb ∧ t.cmd = s.cmd ∧
      t.width = s.width ∧ t.len = s.len ∧ t.script = s.script ∧ t.reads = s.reads ∧ ∀ j, t.tinRead j = s.tinRead j) ∧
    (i ≠ .egcd → t.r1 = s.r1 ∧ t.r2 = s.r2) ∧
    (i ∈ [.stringify, .strEnc, .strDec, .blkDec] →
      t.r0 = s.r0 ∧ ∀ j, t.olen.toNat ≤ j → t.toutRead j = s.toutRead j) ∧
    (i ∉ [.stringify, .strEnc, .strDec, .blkDec] → t.olen = s.olen ∧ ∀ j, t.toutRead j = s.toutRead j)

/-! ### The number theory unit -/

/-- 40_number_theory.md R91, R90: GCD always ends with `ST_OK` and the greatest common divisor of the absolute values in
`R0`, writes nothing else, and its result fits the register when its operands do. -/
def Obligations.GcdCommandReturnsTheGcd : Prop :=
  ∀ s : State, exec .gcd s = .next { s with r0 := (Int.gcd s.opa s.opm : Nat), status := 0 } ∧
    (s.fits s.opa = true → s.fits s.opm = true → s.fits (Int.gcd s.opa s.opm : Nat) = true)

/-- 40_number_theory.md R94: EGCD always ends with `ST_OK`, with the gcd in `R0` and a Bézout pair in `R1` and `R2`. The bounds
of the pair, and so that it fits the registers, are an inference the spec marks as its own. -/
def Obligations.EgcdCommandReturnsABezoutPair : Prop :=
  ∀ s : State, ∃ x y : Int,
    exec .egcd s = .next { s with r0 := (Int.gcd s.opa s.opm : Nat), r1 := x, r2 := y, status := 0 } ∧
    s.opa * x + s.opm * y = (Int.gcd s.opa s.opm : Nat) ∧
    x.natAbs ≤ max s.opm.natAbs 1 ∧ y.natAbs ≤ max s.opa.natAbs 1 ∧
    (s.cfg.wf = true → s.fits s.opa = true → s.fits s.opm = true → s.fits x = true ∧ s.fits y = true)

/-- 40_number_theory.md R92: on non-negative operands EGCD returns the pair of the base case and of the recursion step with
its back-substitution. The step is the spec's general knowledge (93_implementation_defined.md G1, log 8). -/
def Obligations.EgcdFollowsTheRecursion : Prop :=
  ∀ (s : State) (a m g x1 y1 : Int), 0 ≤ m →
    exec .egcd { s with opa := 0, opm := m } = .next { s with opa := 0, opm := m, r0 := m, r1 := 0, r2 := 1, status := 0 } ∧
    (0 < a → exec .egcd { s with opa := m % a, opm := a } =
        .next { s with opa := m % a, opm := a, r0 := g, r1 := x1, r2 := y1, status := 0 } →
      exec .egcd { s with opa := a, opm := m } =
        .next { s with opa := a, opm := m, r0 := g, r1 := y1 - (m / a) * x1, r2 := x1, status := 0 })

/-- 40_number_theory.md R93: on signed operands EGCD returns the pair of the absolute values with the signs moved onto the
coefficients, and the gcd, which is never negative. -/
def Obligations.EgcdMovesTheSignsOntoThePair : Prop :=
  ∀ (s : State) (a m g x y : Int),
    exec .egcd { s with opa := |a|, opm := |m| } =
        .next { s with opa := |a|, opm := |m|, r0 := g, r1 := x, r2 := y, status := 0 } →
      exec .egcd { s with opa := a, opm := m } =
          .next { s with opa := a, opm := m, r0 := g, r1 := (if a < 0 then -x else x), r2 := (if m < 0 then -y else y),
                         status := 0 } ∧
        a * (if a < 0 then -x else x) + m * (if m < 0 then -y else y) = g ∧ g = (Int.gcd a m : Nat)

/-- 40_number_theory.md R94: the corner cases of EGCD. They are the exact pairs of R92 and R93, which rest on general
knowledge (log 8). -/
def Obligations.EgcdCornerPairs : Prop :=
  ∀ (s : State) (a m : Int),
    exec .egcd { s with opa := 0, opm := m } =
      .next { s with opa := 0, opm := m, r0 := |m|, r1 := 0, r2 := (if m < 0 then -1 else 1), status := 0 } ∧
    (a ≠ 0 → exec .egcd { s with opa := a, opm := 0 } =
      .next { s with opa := a, opm := 0, r0 := |a|, r1 := (if a < 0 then -1 else 1), r2 := 0, status := 0 }) ∧
    (0 < a → a ∣ m → exec .egcd { s with opa := a, opm := m } =
      .next { s with opa := a, opm := m, r0 := a, r1 := 1, r2 := 0, status := 0 })

/-- 40_number_theory.md R95: MINV_BF ends with the least candidate `i` in `0 .. OPM−1` that passes the test, or with
`ST_NO_INVERSE` when the modulus is not positive or no candidate passes. -/
def Obligations.MinvBfReturnsTheLeastCandidate : Prop :=
  ∀ s : State,
    (s.opm ≤ 0 → exec .minvBf s = .next { s with status := 4 }) ∧
    (∀ i : Int, 0 ≤ i → i < s.opm → ((s.opa % s.opm) * (i % s.opm)) % s.opm = 1 →
      (∀ j : Int, 0 ≤ j → j < i → ((s.opa % s.opm) * (j % s.opm)) % s.opm ≠ 1) →
        exec .minvBf s = .next { s with r0 := i, status := 0 }) ∧
    ((∀ j : Int, 0 ≤ j → j < s.opm → ((s.opa % s.opm) * (j % s.opm)) % s.opm ≠ 1) →
      exec .minvBf s = .next { s with status := 4 })

/-- 40_number_theory.md R96: MINV_EE ends with `ST_NO_INVERSE` when the modulus is not positive or the gcd is not 1, and
otherwise with the coefficient `R1` of EGCD reduced modulo `OPM`, in `0 .. OPM−1`, in `R0`. -/
def Obligations.MinvEeReducesTheCoefficient : Prop :=
  ∀ (s : State) (g x y : Int), exec .egcd s = .next { s with r0 := g, r1 := x, r2 := y, status := 0 } →
    (s.opm ≤ 0 → exec .minvEe s = .next { s with status := 4 }) ∧
    (0 < s.opm → g ≠ 1 → exec .minvEe s = .next { s with status := 4 }) ∧
    (0 < s.opm → g = 1 → exec .minvEe s = .next { s with r0 := ((x % s.opm) + s.opm) % s.opm, status := 0 } ∧
      0 ≤ ((x % s.opm) + s.opm) % s.opm ∧ ((x % s.opm) + s.opm) % s.opm < s.opm)

/-- 40_number_theory.md R97: for a modulus of at least 2 the two inverse commands have the same outcome, `ST_OK` exactly when
the operands are coprime and then with the one inverse in `1 .. OPM−1`; for a modulus of at most 0 both end with
`ST_NO_INVERSE`; at 1 they differ. -/
def Obligations.InverseCommandsAgree : Prop :=
  ∀ s : State,
    (2 ≤ s.opm → exec .minvBf s = exec .minvEe s ∧
      (Int.gcd s.opa s.opm ≠ 1 → exec .minvEe s = .next { s with status := 4 }) ∧
      (Int.gcd s.opa s.opm = 1 → ∃ v : Int, exec .minvEe s = .next { s with r0 := v, status := 0 } ∧
        ∀ u : Int, (1 ≤ u ∧ u < s.opm ∧ (s.opa * u) % s.opm = 1) ↔ u = v)) ∧
    (s.opm ≤ 0 → exec .minvBf s = .next { s with status := 4 } ∧ exec .minvEe s = .next { s with status := 4 }) ∧
    (s.opm = 1 → exec .minvBf s = .next { s with status := 4 } ∧ exec .minvEe s = .next { s with r0 := 0, status := 0 })

/-- 40_number_theory.md R98: the properties of the source, restated over the commands. -/
def Obligations.NumberTheoryProperties : Prop :=
  ∀ (s : State) (a b : Int), ∃ g x y : Int,
    exec .gcd { s with opa := a, opm := b } = .next { s with opa := a, opm := b, r0 := g, status := 0 } ∧
    exec .gcd { s with opa := |a|, opm := |b| } = .next { s with opa := |a|, opm := |b|, r0 := g, status := 0 } ∧
    0 ≤ g ∧ (b = 0 → g = |a|) ∧ (a = 0 → b = 0 → g = 0) ∧
    exec .egcd { s with opa := a, opm := b } =
      .next { s with opa := a, opm := b, r0 := g, r1 := x, r2 := y, status := 0 } ∧
    a * x + b * y = g ∧
    (2 ≤ b → Int.gcd a b = 1 → ∀ i ∈ [Instr.minvBf, .minvEe], ∃ v : Int,
      exec i { s with opa := a, opm := b } = .next { s with opa := a, opm := b, r0 := v, status := 0 } ∧
      (a * v) % b = 1 ∧ 0 < v ∧ v < b) ∧
    (b ≤ 0 → ∀ i ∈ [Instr.minvBf, .minvEe],
      exec i { s with opa := a, opm := b } = .next { s with opa := a, opm := b, status := 4 })

/-! ### The affine transform unit -/

/-- 41_affine.md R110: AFF_ENC ends with `(k*x + b) mod m`, in `0 .. m−1`, for a positive modulus whatever the key, and with
`ST_INVALID_MODULUS` otherwise. -/
def Obligations.AffEncComputesTheTransform : Prop :=
  ∀ s : State,
    (s.opm ≤ 0 → exec .affEnc s = .next { s with status := 3 }) ∧
    (0 < s.opm → exec .affEnc s = .next { s with r0 := (s.keyk * s.opa + s.keyb) % s.opm, status := 0 } ∧
      0 ≤ (s.keyk * s.opa + s.keyb) % s.opm ∧ (s.keyk * s.opa + s.keyb) % s.opm < s.opm ∧
      (s.fits s.opm = true → s.fits ((s.keyk * s.opa + s.keyb) % s.opm) = true))

/-- 41_affine.md R111: AFF_DEC tests the modulus, then the key, and otherwise ends with `(inv * (y − b)) mod m`, `inv` the
inverse of the key that MINV_EE computes. -/
def Obligations.AffDecComputesTheInverseTransform : Prop :=
  ∀ s : State,
    (s.opm ≤ 0 → exec .affDec s = .next { s with status := 3 }) ∧
    (0 < s.opm → Int.gcd s.keyk s.opm ≠ 1 → exec .affDec s = .next { s with status := 2 }) ∧
    (0 < s.opm → Int.gcd s.keyk s.opm = 1 → ∀ inv : Int,
      exec .minvEe { s with opa := s.keyk } = .next { s with opa := s.keyk, r0 := inv, status := 0 } →
        exec .affDec s = .next { s with r0 := (inv * (s.opa - s.keyb)) % s.opm, status := 0 } ∧
        0 ≤ (inv * (s.opa - s.keyb)) % s.opm ∧ (inv * (s.opa - s.keyb)) % s.opm < s.opm)

/-- 41_affine.md R112: with an invertible key AFF_DEC undoes AFF_ENC, and AFF_ENC undoes AFF_DEC, on every value modulo the
modulus. Outside `0 .. m−1`, and for the second direction, the law is an inference the spec marks as its own. -/
def Obligations.AffineRoundTrip : Prop :=
  ∀ (s : State), 0 < s.opm → Int.gcd s.keyk s.opm = 1 → ∃ y z : Int,
    exec .affEnc s = .next { s with r0 := y, status := 0 } ∧
    exec .affDec { s with opa := y } = .next { s with opa := y, r0 := s.opa % s.opm, status := 0 } ∧
    exec .affDec s = .next { s with r0 := z, status := 0 } ∧
    exec .affEnc { s with opa := z } = .next { s with opa := z, r0 := s.opa % s.opm, status := 0 }

/-- 41_affine.md R113: with a key that is not invertible AFF_ENC still succeeds, but two values of `0 .. m−1` collide, and
AFF_DEC ends with `ST_NON_INVERTIBLE_KEY` whatever the bias. -/
def Obligations.NonInvertibleKeyCollides : Prop :=
  ∀ (s : State), 0 < s.opm → Int.gcd s.keyk s.opm ≠ 1 → ∃ x x' y : Int,
    0 ≤ x ∧ x < x' ∧ x' < s.opm ∧
    exec .affEnc { s with opa := x } = .next { s with opa := x, r0 := y, status := 0 } ∧
    exec .affEnc { s with opa := x' } = .next { s with opa := x', r0 := y, status := 0 } ∧
    ∀ b : Int, exec .affDec { s with keyb := b } = .next { s with keyb := b, status := 2 }

/-! ### STRINGIFY and the stream commands -/

/-- 42_alphabet_stream.md R124: STRINGIFY writes the base-52 digits of `OPA` as letters, least significant first, and their
number `d`, the least with `52^d > n`, into `OLEN`; a negative operand and an output of more than `MAX_LEN` characters
fail. -/
def Obligations.StringifyWritesTheBase52Letters : Prop :=
  ∀ s : State,
    (s.opa < 0 → exec .stringify s = .next { s with status := 6 }) ∧
    (52 ^ s.cfg.maxLen ≤ s.opa → exec .stringify s = .next { s with status := 7 }) ∧
    (0 ≤ s.opa → s.opa < 52 ^ s.cfg.maxLen → ∃ (d : Nat) (m : Memory),
      exec .stringify s = .next { s with tout := m, olen := BitVec.ofNat 32 d, status := 0 } ∧
      d ≤ s.cfg.maxLen ∧ s.opa < 52 ^ d ∧ (∀ e < d, 52 ^ e ≤ s.opa) ∧
      ∀ j, { s with tout := m }.toutRead j = if j < d then i2l (s.opa.toNat / 52 ^ j % 52) else s.toutRead j)

/-- 42_alphabet_stream.md R125: STR_ENC tests the length, then the characters, and otherwise writes every letter transformed
modulo 52 to its own position and `LEN` to `OLEN`; cells at `LEN` and beyond are neither read nor written. -/
def Obligations.StrEncTransformsEachLetter : Prop :=
  ∀ s : State,
    (s.cfg.maxLen < s.len.toNat → exec .strEnc s = .next { s with status := 6 }) ∧
    (s.len.toNat ≤ s.cfg.maxLen → (∃ j < s.len.toNat, l2i (s.tinRead j) = none) →
      exec .strEnc s = .next { s with status := 1 }) ∧
    (s.len.toNat ≤ s.cfg.maxLen → ∀ p : Nat → Nat, (∀ j < s.len.toNat, l2i (s.tinRead j) = some (p j)) →
      ∃ m : Memory, exec .strEnc s = .next { s with tout := m, olen := s.len, status := 0 } ∧
        ∀ j, { s with tout := m }.toutRead j =
          if j < s.len.toNat then i2l ((s.keyk * p j + s.keyb) % 52).toNat else s.toutRead j)

/-- 42_alphabet_stream.md R126: STR_DEC tests the length, then the key, also for the empty text, then the characters, and
otherwise writes every letter transformed back modulo 52, `inv` the inverse of the key. -/
def Obligations.StrDecTransformsEachLetterBack : Prop :=
  ∀ s : State,
    (s.cfg.maxLen < s.len.toNat → exec .strDec s = .next { s with status := 6 }) ∧
    (s.len.toNat ≤ s.cfg.maxLen → Int.gcd s.keyk 52 ≠ 1 → exec .strDec s = .next { s with status := 2 }) ∧
    (s.len.toNat ≤ s.cfg.maxLen → Int.gcd s.keyk 52 = 1 → (∃ j < s.len.toNat, l2i (s.tinRead j) = none) →
      exec .strDec s = .next { s with status := 1 }) ∧
    (s.len.toNat ≤ s.cfg.maxLen → ∀ inv : Int, 0 ≤ inv → inv < 52 → (s.keyk * inv) % 52 = 1 →
      ∀ q : Nat → Nat, (∀ j < s.len.toNat, l2i (s.tinRead j) = some (q j)) →
      ∃ m : Memory, exec .strDec s = .next { s with tout := m, olen := s.len, status := 0 } ∧
        ∀ j, { s with tout := m }.toutRead j =
          if j < s.len.toNat then i2l ((inv * (q j - s.keyb)) % 52).toNat else s.toutRead j)

/-- 42_alphabet_stream.md R127: STR_ENC of a text of letters followed by STR_DEC of its output, with the same invertible key,
gives the text. `u` is a state in which the host has copied the output into `TIN`. -/
def Obligations.StreamRoundTrip : Prop :=
  ∀ s t u : State, s.len.toNat ≤ s.cfg.maxLen → (∀ j < s.len.toNat, l2i (s.tinRead j) ≠ none) →
    Int.gcd s.keyk 52 = 1 → exec .strEnc s = .next t →
    u.cfg = t.cfg → u.keyk = t.keyk → u.keyb = t.keyb → u.len = t.olen →
    (∀ j < t.olen.toNat, u.tinRead j = t.toutRead j) →
      t.status = 0 ∧ ∃ m : Memory, exec .strDec u = .next { u with tout := m, olen := s.len, status := 0 } ∧
        ∀ j < s.len.toNat, { u with tout := m }.toutRead j = s.tinRead j

/-! ### The block codec -/

/-- 43_block_codec.md R141: both block commands refuse a width above `MAX_WIDTH` and then the width 0, whatever the key and
the text. -/
def Obligations.BlockCommandsCheckTheWidthFirst : Prop :=
  ∀ s : State,
    (s.cfg.maxWidth < s.width.toNat →
      exec .blkEnc s = .next { s with status := 6 } ∧ exec .blkDec s = .next { s with status := 6 }) ∧
    (s.width = 0 → s.len.toNat ≤ s.cfg.maxLen → exec .blkEnc s = .next { s with status := 3 }) ∧
    (s.width = 0 → s.len.toNat ≤ s.cfg.maxLen → 0 ≤ s.opa → exec .blkDec s = .next { s with status := 3 })

/-- 43_block_codec.md R146, with R140 and R142 to R145: BLK_ENC makes its checks in order and otherwise puts the ciphertext,
written as the rules' sums, into `R0`, or ends with `ST_RESULT_RANGE` when the register cannot hold it. -/
def Obligations.BlkEncReturnsTheCiphertext : Prop :=
  ∀ s : State,
    (s.cfg.maxLen < s.len.toNat ∨ s.cfg.maxWidth < s.width.toNat → exec .blkEnc s = .next { s with status := 6 }) ∧
    (s.len.toNat ≤ s.cfg.maxLen → s.width = 0 → exec .blkEnc s = .next { s with status := 3 }) ∧
    (s.len.toNat ≤ s.cfg.maxLen → s.width ≠ 0 → s.width.toNat ≤ s.cfg.maxWidth →
      ((∃ j < s.len.toNat, l2i (s.tinRead j) = none) → exec .blkEnc s = .next { s with status := 1 }) ∧
      ∀ p : Nat → Nat, (∀ j < s.len.toNat, l2i (s.tinRead j) = some (p j)) → ∀ c : Nat,
        c = ciphertextForm p s.keyk s.keyb s.len.toNat s.width.toNat →
        (s.fits c = true → exec .blkEnc s = .next { s with r0 := c, status := 0 }) ∧
        (s.fits c = false → exec .blkEnc s = .next { s with status := 7 }))

/-- 43_block_codec.md R150, with R147 to R149: BLK_DEC makes its checks in order, tests every recovered group, and otherwise
writes the last `LEN` recovered letters; `inv` is the inverse of the key under `M(WIDTH)`. -/
def Obligations.BlkDecReturnsTheLastLetters : Prop :=
  ∀ s : State,
    (s.opa < 0 ∨ s.cfg.maxLen < s.len.toNat ∨ s.cfg.maxWidth < s.width.toNat →
      exec .blkDec s = .next { s with status := 6 }) ∧
    (0 ≤ s.opa → s.len.toNat ≤ s.cfg.maxLen → s.width = 0 → exec .blkDec s = .next { s with status := 3 }) ∧
    (0 ≤ s.opa → s.len.toNat ≤ s.cfg.maxLen → s.width ≠ 0 → s.width.toNat ≤ s.cfg.maxWidth →
      (Int.gcd s.keyk (modulusForm s.width.toNat) ≠ 1 → exec .blkDec s = .next { s with status := 2 }) ∧
      ∀ inv : Int, 0 ≤ inv → inv < modulusForm s.width.toNat → (s.keyk * inv) % modulusForm s.width.toNat = 1 →
        ∀ n : Nat, n = chunkForm s.opa.toNat s.width.toNat * s.width.toNat →
        (n < s.len.toNat → exec .blkDec s = .next { s with status := 8 }) ∧
        (s.len.toNat ≤ n → (∃ u < n, 51 < indexForm inv s.keyb s.opa.toNat s.width.toNat u) →
          exec .blkDec s = .next { s with status := 9 }) ∧
        (s.len.toNat ≤ n → (∀ u < n, indexForm inv s.keyb s.opa.toNat s.width.toNat u ≤ 51) →
          ∃ m : Memory, exec .blkDec s = .next { s with tout := m, olen := s.len, status := 0 } ∧
            ∀ j, { s with tout := m }.toutRead j =
              if j < s.len.toNat then i2l (indexForm inv s.keyb s.opa.toNat s.width.toNat (n - s.len.toNat + j))
              else s.toutRead j))

/-- 43_block_codec.md R151, 70_reset_and_hazards.md R199: BLK_DEC of what BLK_ENC returned, with the same invertible key,
width and length, gives the text of at least one letter, unless the leading block encrypted to 0 and is lost from the
number: then it ends with `ST_SHORT_CIPHERTEXT`. The exact condition is an inference the spec marks as its own, stated as
R199 lets the host detect it. `t.status = 0` says that the ciphertext fits the register. -/
def Obligations.BlockRoundTrip : Prop :=
  ∀ s t : State, 0 < s.len.toNat → s.len.toNat ≤ s.cfg.maxLen → 0 < s.width.toNat → s.width.toNat ≤ s.cfg.maxWidth →
    (∀ j < s.len.toNat, l2i (s.tinRead j) ≠ none) → Int.gcd s.keyk (modulusForm s.width.toNat) = 1 →
    exec .blkEnc s = .next t → t.status = 0 →
      ((s.len.toNat ≤ s.width.toNat ∨
          (100 : Int) ^ (s.width.toNat * (blockCount s.len.toNat s.width.toNat - 1)) ≤ t.r0) →
        ∃ m : Memory, exec .blkDec { t with opa := t.r0 } =
            .next { t with opa := t.r0, tout := m, olen := s.len, status := 0 } ∧
          ∀ j < s.len.toNat, { t with tout := m }.toutRead j = s.tinRead j) ∧
      (s.width.toNat < s.len.toNat →
          t.r0 < (100 : Int) ^ (s.width.toNat * (blockCount s.len.toNat s.width.toNat - 1)) →
        exec .blkDec { t with opa := t.r0 } = .next { t with opa := t.r0, status := 8 })

/-- 43_block_codec.md R145, R151: the empty text encrypts to 0; decrypting 0 with `LEN = 0` gives the empty output when the
bias is 0 modulo `M(WIDTH)`. -/
def Obligations.EmptyTextEncryptsToZero : Prop :=
  ∀ s : State, s.len = 0 → 0 < s.width.toNat → s.width.toNat ≤ s.cfg.maxWidth →
    exec .blkEnc s = .next { s with r0 := 0, status := 0 } ∧
    (s.opa = 0 → Int.gcd s.keyk (modulusForm s.width.toNat) = 1 → s.keyb % modulusForm s.width.toNat = 0 →
      exec .blkDec s = .next { s with olen := 0, status := 0 })

/-- 43_block_codec.md R149, 70_reset_and_hazards.md R196: BLK_DEC keeps the last `LEN` recovered letters, so a smaller `LEN`
returns a suffix of the text, silently. -/
def Obligations.SmallerLengthReturnsASuffix : Prop :=
  ∀ (s t : State) (l : Word), l.toNat ≤ s.len.toNat → exec .blkDec s = .next t → t.status = 0 →
    ∃ m : Memory, exec .blkDec { s with len := l } = .next { s with len := l, tout := m, olen := l, status := 0 } ∧
      ∀ j < l.toNat, { s with tout := m }.toutRead j = t.toutRead (s.len.toNat - l.toNat + j)

/-! ### The alphabet -/

/-- 42_alphabet_stream.md R120 to R122: the codes 0x41 to 0x5A have the indices 0 to 25, 0x61 to 0x7A the indices 26 to 51,
and every other code none; the indices 0 to 51 have these letters, and the two directions undo each other. That letters
carry their ASCII codes is the spec's general knowledge (93_implementation_defined.md G2, log 8). -/
def Obligations.AlphabetHasTheLetterCodes : Prop :=
  (∀ c : Byte,
    (0x41 ≤ c.toNat ∧ c.toNat ≤ 0x5A → l2i c = some (c.toNat - 0x41)) ∧
    (0x61 ≤ c.toNat ∧ c.toNat ≤ 0x7A → l2i c = some (c.toNat - 0x61 + 26)) ∧
    (c.toNat < 0x41 ∨ (0x5A < c.toNat ∧ c.toNat < 0x61) ∨ 0x7A < c.toNat → l2i c = none) ∧
    ∀ i, l2i c = some i → i < 52 ∧ i2l i = c) ∧
  ∀ i < 52, (i ≤ 25 → (i2l i).toNat = 0x41 + i) ∧ (26 ≤ i → (i2l i).toNat = 0x61 + (i - 26)) ∧ l2i (i2l i) = some i
end

