-- ==== Sys2Proof/Laws/State.lean ====
section
/-! SUPPORT. What each named update leaves in each field of the state, and in each named read of it. -/

namespace Sys2Proof.Machine

variable (s : State)

/-! ### `setOpa` -/

@[simp] theorem setOpa_cfg (v : Int) : (s.setOpa v).cfg = s.cfg := rfl
@[simp] theorem setOpa_opa (v : Int) : (s.setOpa v).opa = v := rfl
@[simp] theorem setOpa_opm (v : Int) : (s.setOpa v).opm = s.opm := rfl
@[simp] theorem setOpa_keyk (v : Int) : (s.setOpa v).keyk = s.keyk := rfl
@[simp] theorem setOpa_keyb (v : Int) : (s.setOpa v).keyb = s.keyb := rfl
@[simp] theorem setOpa_r0 (v : Int) : (s.setOpa v).r0 = s.r0 := rfl
@[simp] theorem setOpa_r1 (v : Int) : (s.setOpa v).r1 = s.r1 := rfl
@[simp] theorem setOpa_r2 (v : Int) : (s.setOpa v).r2 = s.r2 := rfl
@[simp] theorem setOpa_cmd (v : Int) : (s.setOpa v).cmd = s.cmd := rfl
@[simp] theorem setOpa_status (v : Int) : (s.setOpa v).status = s.status := rfl
@[simp] theorem setOpa_width (v : Int) : (s.setOpa v).width = s.width := rfl
@[simp] theorem setOpa_len (v : Int) : (s.setOpa v).len = s.len := rfl
@[simp] theorem setOpa_olen (v : Int) : (s.setOpa v).olen = s.olen := rfl
@[simp] theorem setOpa_tin (v : Int) : (s.setOpa v).tin = s.tin := rfl
@[simp] theorem setOpa_tout (v : Int) : (s.setOpa v).tout = s.tout := rfl
@[simp] theorem setOpa_script (v : Int) : (s.setOpa v).script = s.script := rfl
@[simp] theorem setOpa_reads (v : Int) : (s.setOpa v).reads = s.reads := rfl
@[simp] theorem setOpa_fits (v : Int) (n : Int) : (s.setOpa v).fits n = s.fits n := rfl
@[simp] theorem setOpa_tinRead (v : Int) (i : Nat) : (s.setOpa v).tinRead i = s.tinRead i := rfl
@[simp] theorem setOpa_toutRead (v : Int) (i : Nat) : (s.setOpa v).toutRead i = s.toutRead i := rfl
@[simp] theorem setOpa_text (v : Int) : (s.setOpa v).text = s.text := rfl

/-! ### `setOpm` -/

@[simp] theorem setOpm_cfg (v : Int) : (s.setOpm v).cfg = s.cfg := rfl
@[simp] theorem setOpm_opa (v : Int) : (s.setOpm v).opa = s.opa := rfl
@[simp] theorem setOpm_opm (v : Int) : (s.setOpm v).opm = v := rfl
@[simp] theorem setOpm_keyk (v : Int) : (s.setOpm v).keyk = s.keyk := rfl
@[simp] theorem setOpm_keyb (v : Int) : (s.setOpm v).keyb = s.keyb := rfl
@[simp] theorem setOpm_r0 (v : Int) : (s.setOpm v).r0 = s.r0 := rfl
@[simp] theorem setOpm_r1 (v : Int) : (s.setOpm v).r1 = s.r1 := rfl
@[simp] theorem setOpm_r2 (v : Int) : (s.setOpm v).r2 = s.r2 := rfl
@[simp] theorem setOpm_cmd (v : Int) : (s.setOpm v).cmd = s.cmd := rfl
@[simp] theorem setOpm_status (v : Int) : (s.setOpm v).status = s.status := rfl
@[simp] theorem setOpm_width (v : Int) : (s.setOpm v).width = s.width := rfl
@[simp] theorem setOpm_len (v : Int) : (s.setOpm v).len = s.len := rfl
@[simp] theorem setOpm_olen (v : Int) : (s.setOpm v).olen = s.olen := rfl
@[simp] theorem setOpm_tin (v : Int) : (s.setOpm v).tin = s.tin := rfl
@[simp] theorem setOpm_tout (v : Int) : (s.setOpm v).tout = s.tout := rfl
@[simp] theorem setOpm_script (v : Int) : (s.setOpm v).script = s.script := rfl
@[simp] theorem setOpm_reads (v : Int) : (s.setOpm v).reads = s.reads := rfl
@[simp] theorem setOpm_fits (v : Int) (n : Int) : (s.setOpm v).fits n = s.fits n := rfl
@[simp] theorem setOpm_tinRead (v : Int) (i : Nat) : (s.setOpm v).tinRead i = s.tinRead i := rfl
@[simp] theorem setOpm_toutRead (v : Int) (i : Nat) : (s.setOpm v).toutRead i = s.toutRead i := rfl
@[simp] theorem setOpm_text (v : Int) : (s.setOpm v).text = s.text := rfl

/-! ### `setKeyk` -/

@[simp] theorem setKeyk_cfg (v : Int) : (s.setKeyk v).cfg = s.cfg := rfl
@[simp] theorem setKeyk_opa (v : Int) : (s.setKeyk v).opa = s.opa := rfl
@[simp] theorem setKeyk_opm (v : Int) : (s.setKeyk v).opm = s.opm := rfl
@[simp] theorem setKeyk_keyk (v : Int) : (s.setKeyk v).keyk = v := rfl
@[simp] theorem setKeyk_keyb (v : Int) : (s.setKeyk v).keyb = s.keyb := rfl
@[simp] theorem setKeyk_r0 (v : Int) : (s.setKeyk v).r0 = s.r0 := rfl
@[simp] theorem setKeyk_r1 (v : Int) : (s.setKeyk v).r1 = s.r1 := rfl
@[simp] theorem setKeyk_r2 (v : Int) : (s.setKeyk v).r2 = s.r2 := rfl
@[simp] theorem setKeyk_cmd (v : Int) : (s.setKeyk v).cmd = s.cmd := rfl
@[simp] theorem setKeyk_status (v : Int) : (s.setKeyk v).status = s.status := rfl
@[simp] theorem setKeyk_width (v : Int) : (s.setKeyk v).width = s.width := rfl
@[simp] theorem setKeyk_len (v : Int) : (s.setKeyk v).len = s.len := rfl
@[simp] theorem setKeyk_olen (v : Int) : (s.setKeyk v).olen = s.olen := rfl
@[simp] theorem setKeyk_tin (v : Int) : (s.setKeyk v).tin = s.tin := rfl
@[simp] theorem setKeyk_tout (v : Int) : (s.setKeyk v).tout = s.tout := rfl
@[simp] theorem setKeyk_script (v : Int) : (s.setKeyk v).script = s.script := rfl
@[simp] theorem setKeyk_reads (v : Int) : (s.setKeyk v).reads = s.reads := rfl
@[simp] theorem setKeyk_fits (v : Int) (n : Int) : (s.setKeyk v).fits n = s.fits n := rfl
@[simp] theorem setKeyk_tinRead (v : Int) (i : Nat) : (s.setKeyk v).tinRead i = s.tinRead i := rfl
@[simp] theorem setKeyk_toutRead (v : Int) (i : Nat) : (s.setKeyk v).toutRead i = s.toutRead i := rfl
@[simp] theorem setKeyk_text (v : Int) : (s.setKeyk v).text = s.text := rfl

/-! ### `setKeyb` -/

@[simp] theorem setKeyb_cfg (v : Int) : (s.setKeyb v).cfg = s.cfg := rfl
@[simp] theorem setKeyb_opa (v : Int) : (s.setKeyb v).opa = s.opa := rfl
@[simp] theorem setKeyb_opm (v : Int) : (s.setKeyb v).opm = s.opm := rfl
@[simp] theorem setKeyb_keyk (v : Int) : (s.setKeyb v).keyk = s.keyk := rfl
@[simp] theorem setKeyb_keyb (v : Int) : (s.setKeyb v).keyb = v := rfl
@[simp] theorem setKeyb_r0 (v : Int) : (s.setKeyb v).r0 = s.r0 := rfl
@[simp] theorem setKeyb_r1 (v : Int) : (s.setKeyb v).r1 = s.r1 := rfl
@[simp] theorem setKeyb_r2 (v : Int) : (s.setKeyb v).r2 = s.r2 := rfl
@[simp] theorem setKeyb_cmd (v : Int) : (s.setKeyb v).cmd = s.cmd := rfl
@[simp] theorem setKeyb_status (v : Int) : (s.setKeyb v).status = s.status := rfl
@[simp] theorem setKeyb_width (v : Int) : (s.setKeyb v).width = s.width := rfl
@[simp] theorem setKeyb_len (v : Int) : (s.setKeyb v).len = s.len := rfl
@[simp] theorem setKeyb_olen (v : Int) : (s.setKeyb v).olen = s.olen := rfl
@[simp] theorem setKeyb_tin (v : Int) : (s.setKeyb v).tin = s.tin := rfl
@[simp] theorem setKeyb_tout (v : Int) : (s.setKeyb v).tout = s.tout := rfl
@[simp] theorem setKeyb_script (v : Int) : (s.setKeyb v).script = s.script := rfl
@[simp] theorem setKeyb_reads (v : Int) : (s.setKeyb v).reads = s.reads := rfl
@[simp] theorem setKeyb_fits (v : Int) (n : Int) : (s.setKeyb v).fits n = s.fits n := rfl
@[simp] theorem setKeyb_tinRead (v : Int) (i : Nat) : (s.setKeyb v).tinRead i = s.tinRead i := rfl
@[simp] theorem setKeyb_toutRead (v : Int) (i : Nat) : (s.setKeyb v).toutRead i = s.toutRead i := rfl
@[simp] theorem setKeyb_text (v : Int) : (s.setKeyb v).text = s.text := rfl

/-! ### `setR0` -/

@[simp] theorem setR0_cfg (v : Int) : (s.setR0 v).cfg = s.cfg := rfl
@[simp] theorem setR0_opa (v : Int) : (s.setR0 v).opa = s.opa := rfl
@[simp] theorem setR0_opm (v : Int) : (s.setR0 v).opm = s.opm := rfl
@[simp] theorem setR0_keyk (v : Int) : (s.setR0 v).keyk = s.keyk := rfl
@[simp] theorem setR0_keyb (v : Int) : (s.setR0 v).keyb = s.keyb := rfl
@[simp] theorem setR0_r0 (v : Int) : (s.setR0 v).r0 = v := rfl
@[simp] theorem setR0_r1 (v : Int) : (s.setR0 v).r1 = s.r1 := rfl
@[simp] theorem setR0_r2 (v : Int) : (s.setR0 v).r2 = s.r2 := rfl
@[simp] theorem setR0_cmd (v : Int) : (s.setR0 v).cmd = s.cmd := rfl
@[simp] theorem setR0_status (v : Int) : (s.setR0 v).status = s.status := rfl
@[simp] theorem setR0_width (v : Int) : (s.setR0 v).width = s.width := rfl
@[simp] theorem setR0_len (v : Int) : (s.setR0 v).len = s.len := rfl
@[simp] theorem setR0_olen (v : Int) : (s.setR0 v).olen = s.olen := rfl
@[simp] theorem setR0_tin (v : Int) : (s.setR0 v).tin = s.tin := rfl
@[simp] theorem setR0_tout (v : Int) : (s.setR0 v).tout = s.tout := rfl
@[simp] theorem setR0_script (v : Int) : (s.setR0 v).script = s.script := rfl
@[simp] theorem setR0_reads (v : Int) : (s.setR0 v).reads = s.reads := rfl
@[simp] theorem setR0_fits (v : Int) (n : Int) : (s.setR0 v).fits n = s.fits n := rfl
@[simp] theorem setR0_tinRead (v : Int) (i : Nat) : (s.setR0 v).tinRead i = s.tinRead i := rfl
@[simp] theorem setR0_toutRead (v : Int) (i : Nat) : (s.setR0 v).toutRead i = s.toutRead i := rfl
@[simp] theorem setR0_text (v : Int) : (s.setR0 v).text = s.text := rfl

/-! ### `setR1` -/

@[simp] theorem setR1_cfg (v : Int) : (s.setR1 v).cfg = s.cfg := rfl
@[simp] theorem setR1_opa (v : Int) : (s.setR1 v).opa = s.opa := rfl
@[simp] theorem setR1_opm (v : Int) : (s.setR1 v).opm = s.opm := rfl
@[simp] theorem setR1_keyk (v : Int) : (s.setR1 v).keyk = s.keyk := rfl
@[simp] theorem setR1_keyb (v : Int) : (s.setR1 v).keyb = s.keyb := rfl
@[simp] theorem setR1_r0 (v : Int) : (s.setR1 v).r0 = s.r0 := rfl
@[simp] theorem setR1_r1 (v : Int) : (s.setR1 v).r1 = v := rfl
@[simp] theorem setR1_r2 (v : Int) : (s.setR1 v).r2 = s.r2 := rfl
@[simp] theorem setR1_cmd (v : Int) : (s.setR1 v).cmd = s.cmd := rfl
@[simp] theorem setR1_status (v : Int) : (s.setR1 v).status = s.status := rfl
@[simp] theorem setR1_width (v : Int) : (s.setR1 v).width = s.width := rfl
@[simp] theorem setR1_len (v : Int) : (s.setR1 v).len = s.len := rfl
@[simp] theorem setR1_olen (v : Int) : (s.setR1 v).olen = s.olen := rfl
@[simp] theorem setR1_tin (v : Int) : (s.setR1 v).tin = s.tin := rfl
@[simp] theorem setR1_tout (v : Int) : (s.setR1 v).tout = s.tout := rfl
@[simp] theorem setR1_script (v : Int) : (s.setR1 v).script = s.script := rfl
@[simp] theorem setR1_reads (v : Int) : (s.setR1 v).reads = s.reads := rfl
@[simp] theorem setR1_fits (v : Int) (n : Int) : (s.setR1 v).fits n = s.fits n := rfl
@[simp] theorem setR1_tinRead (v : Int) (i : Nat) : (s.setR1 v).tinRead i = s.tinRead i := rfl
@[simp] theorem setR1_toutRead (v : Int) (i : Nat) : (s.setR1 v).toutRead i = s.toutRead i := rfl
@[simp] theorem setR1_text (v : Int) : (s.setR1 v).text = s.text := rfl

/-! ### `setR2` -/

@[simp] theorem setR2_cfg (v : Int) : (s.setR2 v).cfg = s.cfg := rfl
@[simp] theorem setR2_opa (v : Int) : (s.setR2 v).opa = s.opa := rfl
@[simp] theorem setR2_opm (v : Int) : (s.setR2 v).opm = s.opm := rfl
@[simp] theorem setR2_keyk (v : Int) : (s.setR2 v).keyk = s.keyk := rfl
@[simp] theorem setR2_keyb (v : Int) : (s.setR2 v).keyb = s.keyb := rfl
@[simp] theorem setR2_r0 (v : Int) : (s.setR2 v).r0 = s.r0 := rfl
@[simp] theorem setR2_r1 (v : Int) : (s.setR2 v).r1 = s.r1 := rfl
@[simp] theorem setR2_r2 (v : Int) : (s.setR2 v).r2 = v := rfl
@[simp] theorem setR2_cmd (v : Int) : (s.setR2 v).cmd = s.cmd := rfl
@[simp] theorem setR2_status (v : Int) : (s.setR2 v).status = s.status := rfl
@[simp] theorem setR2_width (v : Int) : (s.setR2 v).width = s.width := rfl
@[simp] theorem setR2_len (v : Int) : (s.setR2 v).len = s.len := rfl
@[simp] theorem setR2_olen (v : Int) : (s.setR2 v).olen = s.olen := rfl
@[simp] theorem setR2_tin (v : Int) : (s.setR2 v).tin = s.tin := rfl
@[simp] theorem setR2_tout (v : Int) : (s.setR2 v).tout = s.tout := rfl
@[simp] theorem setR2_script (v : Int) : (s.setR2 v).script = s.script := rfl
@[simp] theorem setR2_reads (v : Int) : (s.setR2 v).reads = s.reads := rfl
@[simp] theorem setR2_fits (v : Int) (n : Int) : (s.setR2 v).fits n = s.fits n := rfl
@[simp] theorem setR2_tinRead (v : Int) (i : Nat) : (s.setR2 v).tinRead i = s.tinRead i := rfl
@[simp] theorem setR2_toutRead (v : Int) (i : Nat) : (s.setR2 v).toutRead i = s.toutRead i := rfl
@[simp] theorem setR2_text (v : Int) : (s.setR2 v).text = s.text := rfl

/-! ### `setCmd` -/

@[simp] theorem setCmd_cfg (v : Word) : (s.setCmd v).cfg = s.cfg := rfl
@[simp] theorem setCmd_opa (v : Word) : (s.setCmd v).opa = s.opa := rfl
@[simp] theorem setCmd_opm (v : Word) : (s.setCmd v).opm = s.opm := rfl
@[simp] theorem setCmd_keyk (v : Word) : (s.setCmd v).keyk = s.keyk := rfl
@[simp] theorem setCmd_keyb (v : Word) : (s.setCmd v).keyb = s.keyb := rfl
@[simp] theorem setCmd_r0 (v : Word) : (s.setCmd v).r0 = s.r0 := rfl
@[simp] theorem setCmd_r1 (v : Word) : (s.setCmd v).r1 = s.r1 := rfl
@[simp] theorem setCmd_r2 (v : Word) : (s.setCmd v).r2 = s.r2 := rfl
@[simp] theorem setCmd_cmd (v : Word) : (s.setCmd v).cmd = v := rfl
@[simp] theorem setCmd_status (v : Word) : (s.setCmd v).status = s.status := rfl
@[simp] theorem setCmd_width (v : Word) : (s.setCmd v).width = s.width := rfl
@[simp] theorem setCmd_len (v : Word) : (s.setCmd v).len = s.len := rfl
@[simp] theorem setCmd_olen (v : Word) : (s.setCmd v).olen = s.olen := rfl
@[simp] theorem setCmd_tin (v : Word) : (s.setCmd v).tin = s.tin := rfl
@[simp] theorem setCmd_tout (v : Word) : (s.setCmd v).tout = s.tout := rfl
@[simp] theorem setCmd_script (v : Word) : (s.setCmd v).script = s.script := rfl
@[simp] theorem setCmd_reads (v : Word) : (s.setCmd v).reads = s.reads := rfl
@[simp] theorem setCmd_fits (v : Word) (n : Int) : (s.setCmd v).fits n = s.fits n := rfl
@[simp] theorem setCmd_tinRead (v : Word) (i : Nat) : (s.setCmd v).tinRead i = s.tinRead i := rfl
@[simp] theorem setCmd_toutRead (v : Word) (i : Nat) : (s.setCmd v).toutRead i = s.toutRead i := rfl
@[simp] theorem setCmd_text (v : Word) : (s.setCmd v).text = s.text := rfl

/-! ### `setStatus` -/

@[simp] theorem setStatus_cfg (v : Word) : (s.setStatus v).cfg = s.cfg := rfl
@[simp] theorem setStatus_opa (v : Word) : (s.setStatus v).opa = s.opa := rfl
@[simp] theorem setStatus_opm (v : Word) : (s.setStatus v).opm = s.opm := rfl
@[simp] theorem setStatus_keyk (v : Word) : (s.setStatus v).keyk = s.keyk := rfl
@[simp] theorem setStatus_keyb (v : Word) : (s.setStatus v).keyb = s.keyb := rfl
@[simp] theorem setStatus_r0 (v : Word) : (s.setStatus v).r0 = s.r0 := rfl
@[simp] theorem setStatus_r1 (v : Word) : (s.setStatus v).r1 = s.r1 := rfl
@[simp] theorem setStatus_r2 (v : Word) : (s.setStatus v).r2 = s.r2 := rfl
@[simp] theorem setStatus_cmd (v : Word) : (s.setStatus v).cmd = s.cmd := rfl
@[simp] theorem setStatus_status (v : Word) : (s.setStatus v).status = v := rfl
@[simp] theorem setStatus_width (v : Word) : (s.setStatus v).width = s.width := rfl
@[simp] theorem setStatus_len (v : Word) : (s.setStatus v).len = s.len := rfl
@[simp] theorem setStatus_olen (v : Word) : (s.setStatus v).olen = s.olen := rfl
@[simp] theorem setStatus_tin (v : Word) : (s.setStatus v).tin = s.tin := rfl
@[simp] theorem setStatus_tout (v : Word) : (s.setStatus v).tout = s.tout := rfl
@[simp] theorem setStatus_script (v : Word) : (s.setStatus v).script = s.script := rfl
@[simp] theorem setStatus_reads (v : Word) : (s.setStatus v).reads = s.reads := rfl
@[simp] theorem setStatus_fits (v : Word) (n : Int) : (s.setStatus v).fits n = s.fits n := rfl
@[simp] theorem setStatus_tinRead (v : Word) (i : Nat) : (s.setStatus v).tinRead i = s.tinRead i := rfl
@[simp] theorem setStatus_toutRead (v : Word) (i : Nat) : (s.setStatus v).toutRead i = s.toutRead i := rfl
@[simp] theorem setStatus_text (v : Word) : (s.setStatus v).text = s.text := rfl

/-! ### `setWidth` -/

@[simp] theorem setWidth_cfg (v : Word) : (s.setWidth v).cfg = s.cfg := rfl
@[simp] theorem setWidth_opa (v : Word) : (s.setWidth v).opa = s.opa := rfl
@[simp] theorem setWidth_opm (v : Word) : (s.setWidth v).opm = s.opm := rfl
@[simp] theorem setWidth_keyk (v : Word) : (s.setWidth v).keyk = s.keyk := rfl
@[simp] theorem setWidth_keyb (v : Word) : (s.setWidth v).keyb = s.keyb := rfl
@[simp] theorem setWidth_r0 (v : Word) : (s.setWidth v).r0 = s.r0 := rfl
@[simp] theorem setWidth_r1 (v : Word) : (s.setWidth v).r1 = s.r1 := rfl
@[simp] theorem setWidth_r2 (v : Word) : (s.setWidth v).r2 = s.r2 := rfl
@[simp] theorem setWidth_cmd (v : Word) : (s.setWidth v).cmd = s.cmd := rfl
@[simp] theorem setWidth_status (v : Word) : (s.setWidth v).status = s.status := rfl
@[simp] theorem setWidth_width (v : Word) : (s.setWidth v).width = v := rfl
@[simp] theorem setWidth_len (v : Word) : (s.setWidth v).len = s.len := rfl
@[simp] theorem setWidth_olen (v : Word) : (s.setWidth v).olen = s.olen := rfl
@[simp] theorem setWidth_tin (v : Word) : (s.setWidth v).tin = s.tin := rfl
@[simp] theorem setWidth_tout (v : Word) : (s.setWidth v).tout = s.tout := rfl
@[simp] theorem setWidth_script (v : Word) : (s.setWidth v).script = s.script := rfl
@[simp] theorem setWidth_reads (v : Word) : (s.setWidth v).reads = s.reads := rfl
@[simp] theorem setWidth_fits (v : Word) (n : Int) : (s.setWidth v).fits n = s.fits n := rfl
@[simp] theorem setWidth_tinRead (v : Word) (i : Nat) : (s.setWidth v).tinRead i = s.tinRead i := rfl
@[simp] theorem setWidth_toutRead (v : Word) (i : Nat) : (s.setWidth v).toutRead i = s.toutRead i := rfl
@[simp] theorem setWidth_text (v : Word) : (s.setWidth v).text = s.text := rfl

/-! ### `setLen` -/

@[simp] theorem setLen_cfg (v : Word) : (s.setLen v).cfg = s.cfg := rfl
@[simp] theorem setLen_opa (v : Word) : (s.setLen v).opa = s.opa := rfl
@[simp] theorem setLen_opm (v : Word) : (s.setLen v).opm = s.opm := rfl
@[simp] theorem setLen_keyk (v : Word) : (s.setLen v).keyk = s.keyk := rfl
@[simp] theorem setLen_keyb (v : Word) : (s.setLen v).keyb = s.keyb := rfl
@[simp] theorem setLen_r0 (v : Word) : (s.setLen v).r0 = s.r0 := rfl
@[simp] theorem setLen_r1 (v : Word) : (s.setLen v).r1 = s.r1 := rfl
@[simp] theorem setLen_r2 (v : Word) : (s.setLen v).r2 = s.r2 := rfl
@[simp] theorem setLen_cmd (v : Word) : (s.setLen v).cmd = s.cmd := rfl
@[simp] theorem setLen_status (v : Word) : (s.setLen v).status = s.status := rfl
@[simp] theorem setLen_width (v : Word) : (s.setLen v).width = s.width := rfl
@[simp] theorem setLen_len (v : Word) : (s.setLen v).len = v := rfl
@[simp] theorem setLen_olen (v : Word) : (s.setLen v).olen = s.olen := rfl
@[simp] theorem setLen_tin (v : Word) : (s.setLen v).tin = s.tin := rfl
@[simp] theorem setLen_tout (v : Word) : (s.setLen v).tout = s.tout := rfl
@[simp] theorem setLen_script (v : Word) : (s.setLen v).script = s.script := rfl
@[simp] theorem setLen_reads (v : Word) : (s.setLen v).reads = s.reads := rfl
@[simp] theorem setLen_fits (v : Word) (n : Int) : (s.setLen v).fits n = s.fits n := rfl
@[simp] theorem setLen_tinRead (v : Word) (i : Nat) : (s.setLen v).tinRead i = s.tinRead i := rfl
@[simp] theorem setLen_toutRead (v : Word) (i : Nat) : (s.setLen v).toutRead i = s.toutRead i := rfl

/-! ### `setOlen` -/

@[simp] theorem setOlen_cfg (v : Word) : (s.setOlen v).cfg = s.cfg := rfl
@[simp] theorem setOlen_opa (v : Word) : (s.setOlen v).opa = s.opa := rfl
@[simp] theorem setOlen_opm (v : Word) : (s.setOlen v).opm = s.opm := rfl
@[simp] theorem setOlen_keyk (v : Word) : (s.setOlen v).keyk = s.keyk := rfl
@[simp] theorem setOlen_keyb (v : Word) : (s.setOlen v).keyb = s.keyb := rfl
@[simp] theorem setOlen_r0 (v : Word) : (s.setOlen v).r0 = s.r0 := rfl
@[simp] theorem setOlen_r1 (v : Word) : (s.setOlen v).r1 = s.r1 := rfl
@[simp] theorem setOlen_r2 (v : Word) : (s.setOlen v).r2 = s.r2 := rfl
@[simp] theorem setOlen_cmd (v : Word) : (s.setOlen v).cmd = s.cmd := rfl
@[simp] theorem setOlen_status (v : Word) : (s.setOlen v).status = s.status := rfl
@[simp] theorem setOlen_width (v : Word) : (s.setOlen v).width = s.width := rfl
@[simp] theorem setOlen_len (v : Word) : (s.setOlen v).len = s.len := rfl
@[simp] theorem setOlen_olen (v : Word) : (s.setOlen v).olen = v := rfl
@[simp] theorem setOlen_tin (v : Word) : (s.setOlen v).tin = s.tin := rfl
@[simp] theorem setOlen_tout (v : Word) : (s.setOlen v).tout = s.tout := rfl
@[simp] theorem setOlen_script (v : Word) : (s.setOlen v).script = s.script := rfl
@[simp] theorem setOlen_reads (v : Word) : (s.setOlen v).reads = s.reads := rfl
@[simp] theorem setOlen_fits (v : Word) (n : Int) : (s.setOlen v).fits n = s.fits n := rfl
@[simp] theorem setOlen_tinRead (v : Word) (i : Nat) : (s.setOlen v).tinRead i = s.tinRead i := rfl
@[simp] theorem setOlen_toutRead (v : Word) (i : Nat) : (s.setOlen v).toutRead i = s.toutRead i := rfl
@[simp] theorem setOlen_text (v : Word) : (s.setOlen v).text = s.text := rfl

/-! ### `setTin` -/

@[simp] theorem setTin_cfg (v : Memory) : (s.setTin v).cfg = s.cfg := rfl
@[simp] theorem setTin_opa (v : Memory) : (s.setTin v).opa = s.opa := rfl
@[simp] theorem setTin_opm (v : Memory) : (s.setTin v).opm = s.opm := rfl
@[simp] theorem setTin_keyk (v : Memory) : (s.setTin v).keyk = s.keyk := rfl
@[simp] theorem setTin_keyb (v : Memory) : (s.setTin v).keyb = s.keyb := rfl
@[simp] theorem setTin_r0 (v : Memory) : (s.setTin v).r0 = s.r0 := rfl
@[simp] theorem setTin_r1 (v : Memory) : (s.setTin v).r1 = s.r1 := rfl
@[simp] theorem setTin_r2 (v : Memory) : (s.setTin v).r2 = s.r2 := rfl
@[simp] theorem setTin_cmd (v : Memory) : (s.setTin v).cmd = s.cmd := rfl
@[simp] theorem setTin_status (v : Memory) : (s.setTin v).status = s.status := rfl
@[simp] theorem setTin_width (v : Memory) : (s.setTin v).width = s.width := rfl
@[simp] theorem setTin_len (v : Memory) : (s.setTin v).len = s.len := rfl
@[simp] theorem setTin_olen (v : Memory) : (s.setTin v).olen = s.olen := rfl
@[simp] theorem setTin_tin (v : Memory) : (s.setTin v).tin = v := rfl
@[simp] theorem setTin_tout (v : Memory) : (s.setTin v).tout = s.tout := rfl
@[simp] theorem setTin_script (v : Memory) : (s.setTin v).script = s.script := rfl
@[simp] theorem setTin_reads (v : Memory) : (s.setTin v).reads = s.reads := rfl
@[simp] theorem setTin_fits (v : Memory) (n : Int) : (s.setTin v).fits n = s.fits n := rfl
@[simp] theorem setTin_toutRead (v : Memory) (i : Nat) : (s.setTin v).toutRead i = s.toutRead i := rfl

/-! ### `setTout` -/

@[simp] theorem setTout_cfg (v : Memory) : (s.setTout v).cfg = s.cfg := rfl
@[simp] theorem setTout_opa (v : Memory) : (s.setTout v).opa = s.opa := rfl
@[simp] theorem setTout_opm (v : Memory) : (s.setTout v).opm = s.opm := rfl
@[simp] theorem setTout_keyk (v : Memory) : (s.setTout v).keyk = s.keyk := rfl
@[simp] theorem setTout_keyb (v : Memory) : (s.setTout v).keyb = s.keyb := rfl
@[simp] theorem setTout_r0 (v : Memory) : (s.setTout v).r0 = s.r0 := rfl
@[simp] theorem setTout_r1 (v : Memory) : (s.setTout v).r1 = s.r1 := rfl
@[simp] theorem setTout_r2 (v : Memory) : (s.setTout v).r2 = s.r2 := rfl
@[simp] theorem setTout_cmd (v : Memory) : (s.setTout v).cmd = s.cmd := rfl
@[simp] theorem setTout_status (v : Memory) : (s.setTout v).status = s.status := rfl
@[simp] theorem setTout_width (v : Memory) : (s.setTout v).width = s.width := rfl
@[simp] theorem setTout_len (v : Memory) : (s.setTout v).len = s.len := rfl
@[simp] theorem setTout_olen (v : Memory) : (s.setTout v).olen = s.olen := rfl
@[simp] theorem setTout_tin (v : Memory) : (s.setTout v).tin = s.tin := rfl
@[simp] theorem setTout_tout (v : Memory) : (s.setTout v).tout = v := rfl
@[simp] theorem setTout_script (v : Memory) : (s.setTout v).script = s.script := rfl
@[simp] theorem setTout_reads (v : Memory) : (s.setTout v).reads = s.reads := rfl
@[simp] theorem setTout_fits (v : Memory) (n : Int) : (s.setTout v).fits n = s.fits n := rfl
@[simp] theorem setTout_tinRead (v : Memory) (i : Nat) : (s.setTout v).tinRead i = s.tinRead i := rfl
@[simp] theorem setTout_text (v : Memory) : (s.setTout v).text = s.text := rfl

/-! ### `setScript` -/

@[simp] theorem setScript_cfg (v : List HostAccess) : (s.setScript v).cfg = s.cfg := rfl
@[simp] theorem setScript_opa (v : List HostAccess) : (s.setScript v).opa = s.opa := rfl
@[simp] theorem setScript_opm (v : List HostAccess) : (s.setScript v).opm = s.opm := rfl
@[simp] theorem setScript_keyk (v : List HostAccess) : (s.setScript v).keyk = s.keyk := rfl
@[simp] theorem setScript_keyb (v : List HostAccess) : (s.setScript v).keyb = s.keyb := rfl
@[simp] theorem setScript_r0 (v : List HostAccess) : (s.setScript v).r0 = s.r0 := rfl
@[simp] theorem setScript_r1 (v : List HostAccess) : (s.setScript v).r1 = s.r1 := rfl
@[simp] theorem setScript_r2 (v : List HostAccess) : (s.setScript v).r2 = s.r2 := rfl
@[simp] theorem setScript_cmd (v : List HostAccess) : (s.setScript v).cmd = s.cmd := rfl
@[simp] theorem setScript_status (v : List HostAccess) : (s.setScript v).status = s.status := rfl
@[simp] theorem setScript_width (v : List HostAccess) : (s.setScript v).width = s.width := rfl
@[simp] theorem setScript_len (v : List HostAccess) : (s.setScript v).len = s.len := rfl
@[simp] theorem setScript_olen (v : List HostAccess) : (s.setScript v).olen = s.olen := rfl
@[simp] theorem setScript_tin (v : List HostAccess) : (s.setScript v).tin = s.tin := rfl
@[simp] theorem setScript_tout (v : List HostAccess) : (s.setScript v).tout = s.tout := rfl
@[simp] theorem setScript_script (v : List HostAccess) : (s.setScript v).script = v := rfl
@[simp] theorem setScript_reads (v : List HostAccess) : (s.setScript v).reads = s.reads := rfl
@[simp] theorem setScript_fits (v : List HostAccess) (n : Int) : (s.setScript v).fits n = s.fits n := rfl
@[simp] theorem setScript_tinRead (v : List HostAccess) (i : Nat) : (s.setScript v).tinRead i = s.tinRead i := rfl
@[simp] theorem setScript_toutRead (v : List HostAccess) (i : Nat) : (s.setScript v).toutRead i = s.toutRead i := rfl
@[simp] theorem setScript_text (v : List HostAccess) : (s.setScript v).text = s.text := rfl

/-! ### `setReads` -/

@[simp] theorem setReads_cfg (v : List HostValue) : (s.setReads v).cfg = s.cfg := rfl
@[simp] theorem setReads_opa (v : List HostValue) : (s.setReads v).opa = s.opa := rfl
@[simp] theorem setReads_opm (v : List HostValue) : (s.setReads v).opm = s.opm := rfl
@[simp] theorem setReads_keyk (v : List HostValue) : (s.setReads v).keyk = s.keyk := rfl
@[simp] theorem setReads_keyb (v : List HostValue) : (s.setReads v).keyb = s.keyb := rfl
@[simp] theorem setReads_r0 (v : List HostValue) : (s.setReads v).r0 = s.r0 := rfl
@[simp] theorem setReads_r1 (v : List HostValue) : (s.setReads v).r1 = s.r1 := rfl
@[simp] theorem setReads_r2 (v : List HostValue) : (s.setReads v).r2 = s.r2 := rfl
@[simp] theorem setReads_cmd (v : List HostValue) : (s.setReads v).cmd = s.cmd := rfl
@[simp] theorem setReads_status (v : List HostValue) : (s.setReads v).status = s.status := rfl
@[simp] theorem setReads_width (v : List HostValue) : (s.setReads v).width = s.width := rfl
@[simp] theorem setReads_len (v : List HostValue) : (s.setReads v).len = s.len := rfl
@[simp] theorem setReads_olen (v : List HostValue) : (s.setReads v).olen = s.olen := rfl
@[simp] theorem setReads_tin (v : List HostValue) : (s.setReads v).tin = s.tin := rfl
@[simp] theorem setReads_tout (v : List HostValue) : (s.setReads v).tout = s.tout := rfl
@[simp] theorem setReads_script (v : List HostValue) : (s.setReads v).script = s.script := rfl
@[simp] theorem setReads_reads (v : List HostValue) : (s.setReads v).reads = v := rfl
@[simp] theorem setReads_fits (v : List HostValue) (n : Int) : (s.setReads v).fits n = s.fits n := rfl
@[simp] theorem setReads_tinRead (v : List HostValue) (i : Nat) : (s.setReads v).tinRead i = s.tinRead i := rfl
@[simp] theorem setReads_toutRead (v : List HostValue) (i : Nat) : (s.setReads v).toutRead i = s.toutRead i := rfl
@[simp] theorem setReads_text (v : List HostValue) : (s.setReads v).text = s.text := rfl

/-! ### Composite updates -/

@[simp] theorem writeTout_cfg (l : List Byte) : (s.writeTout l).cfg = s.cfg := rfl
@[simp] theorem writeTout_opa (l : List Byte) : (s.writeTout l).opa = s.opa := rfl
@[simp] theorem writeTout_opm (l : List Byte) : (s.writeTout l).opm = s.opm := rfl
@[simp] theorem writeTout_keyk (l : List Byte) : (s.writeTout l).keyk = s.keyk := rfl
@[simp] theorem writeTout_keyb (l : List Byte) : (s.writeTout l).keyb = s.keyb := rfl
@[simp] theorem writeTout_r0 (l : List Byte) : (s.writeTout l).r0 = s.r0 := rfl
@[simp] theorem writeTout_r1 (l : List Byte) : (s.writeTout l).r1 = s.r1 := rfl
@[simp] theorem writeTout_r2 (l : List Byte) : (s.writeTout l).r2 = s.r2 := rfl
@[simp] theorem writeTout_cmd (l : List Byte) : (s.writeTout l).cmd = s.cmd := rfl
@[simp] theorem writeTout_status (l : List Byte) : (s.writeTout l).status = s.status := rfl
@[simp] theorem writeTout_width (l : List Byte) : (s.writeTout l).width = s.width := rfl
@[simp] theorem writeTout_len (l : List Byte) : (s.writeTout l).len = s.len := rfl
@[simp] theorem writeTout_olen (l : List Byte) : (s.writeTout l).olen = s.olen := rfl
@[simp] theorem writeTout_tin (l : List Byte) : (s.writeTout l).tin = s.tin := rfl
@[simp] theorem writeTout_tout (l : List Byte) : (s.writeTout l).tout = s.tout.writeFrom 0 l := rfl
@[simp] theorem writeTout_script (l : List Byte) : (s.writeTout l).script = s.script := rfl
@[simp] theorem writeTout_reads (l : List Byte) : (s.writeTout l).reads = s.reads := rfl
@[simp] theorem writeTout_fits (l : List Byte) (n : Int) : (s.writeTout l).fits n = s.fits n := rfl
@[simp] theorem writeTout_tinRead (l : List Byte) (i : Nat) : (s.writeTout l).tinRead i = s.tinRead i := rfl
@[simp] theorem observe_cfg (v : HostValue) : (s.observe v).cfg = s.cfg := rfl
@[simp] theorem observe_opa (v : HostValue) : (s.observe v).opa = s.opa := rfl
@[simp] theorem observe_opm (v : HostValue) : (s.observe v).opm = s.opm := rfl
@[simp] theorem observe_keyk (v : HostValue) : (s.observe v).keyk = s.keyk := rfl
@[simp] theorem observe_keyb (v : HostValue) : (s.observe v).keyb = s.keyb := rfl
@[simp] theorem observe_r0 (v : HostValue) : (s.observe v).r0 = s.r0 := rfl
@[simp] theorem observe_r1 (v : HostValue) : (s.observe v).r1 = s.r1 := rfl
@[simp] theorem observe_r2 (v : HostValue) : (s.observe v).r2 = s.r2 := rfl
@[simp] theorem observe_cmd (v : HostValue) : (s.observe v).cmd = s.cmd := rfl
@[simp] theorem observe_status (v : HostValue) : (s.observe v).status = s.status := rfl
@[simp] theorem observe_width (v : HostValue) : (s.observe v).width = s.width := rfl
@[simp] theorem observe_len (v : HostValue) : (s.observe v).len = s.len := rfl
@[simp] theorem observe_olen (v : HostValue) : (s.observe v).olen = s.olen := rfl
@[simp] theorem observe_tin (v : HostValue) : (s.observe v).tin = s.tin := rfl
@[simp] theorem observe_tout (v : HostValue) : (s.observe v).tout = s.tout := rfl
@[simp] theorem observe_script (v : HostValue) : (s.observe v).script = s.script := rfl
@[simp] theorem observe_reads (v : HostValue) : (s.observe v).reads = v :: s.reads := rfl
@[simp] theorem observe_fits (v : HostValue) (n : Int) : (s.observe v).fits n = s.fits n := rfl

end Sys2Proof.Machine
end

