-- ==== Sys2Proof/Laws/Memory.lean ====
section
/-! SUPPORT. The text spaces: a read after a write, and every operation keeps the canonical form (20_memory.md R52, R53). -/

namespace Sys2Proof.Machine

theorem get?_set_same (m : Memory) (a : Nat) (v : Byte) : (m.set a v).get? a = some v := by
  induction m with
  | nil => simp [Memory.set, Memory.get?]
  | cons c m ih =>
    obtain ⟨b, w⟩ := c
    simp only [Memory.set]
    split
    · simp [Memory.get?]
    · split
      · simp [Memory.get?]
      · simp [Memory.get?, *]

theorem get?_set_other (m : Memory) {a b : Nat} (v : Byte) (h : b ≠ a) : (m.set a v).get? b = m.get? b := by
  induction m with
  | nil => simp [Memory.set, Memory.get?, h]
  | cons c m ih =>
    obtain ⟨d, w⟩ := c
    simp only [Memory.set]
    split
    · simp [Memory.get?, h]
    · split
      · subst_vars; simp [Memory.get?, h]
      · simp [Memory.get?, ih]

theorem mem_set {m : Memory} {a : Nat} {v : Byte} {c : Host.Cell} (h : c ∈ m.set a v) : c = (a, v) ∨ c ∈ m := by
  induction m with
  | nil => simpa [Memory.set] using h
  | cons d m ih =>
    obtain ⟨b, w⟩ := d
    simp only [Memory.set] at h
    split at h
    · simpa using h
    · split at h
      · rcases List.mem_cons.1 h with h | h <;> simp [h]
      · rcases List.mem_cons.1 h with h | h
        · simp [h]
        · rcases ih h with h | h <;> simp [h]

theorem set_wf {m : Memory} (h : m.wf) (a : Nat) (v : Byte) : (m.set a v).wf := by
  induction m with
  | nil => simp [Memory.set, Memory.wf]
  | cons d m ih =>
    obtain ⟨b, w⟩ := d
    obtain ⟨hb, hm⟩ := List.pairwise_cons.1 h
    simp only [Memory.set]
    split
    · rename_i hab
      refine List.pairwise_cons.2 ⟨fun c hc => ?_, h⟩
      rcases List.mem_cons.1 hc with rfl | hc
      · exact hab
      · exact lt_trans hab (hb c hc)
    · split
      · rename_i hab
        subst hab
        exact List.pairwise_cons.2 ⟨hb, hm⟩
      · refine List.pairwise_cons.2 ⟨fun c hc => ?_, ih hm⟩
        rcases mem_set hc with rfl | hc
        · simp; omega
        · exact hb c hc

theorem set_below {n : Nat} {m : Memory} (h : m.below n) {a : Nat} (ha : a < n) (v : Byte) : (m.set a v).below n := by
  intro c hc
  rcases mem_set hc with rfl | hc
  · exact ha
  · exact h c hc

theorem writeFrom_wf (vs : List Byte) : ∀ {m : Memory}, m.wf → ∀ a, (m.writeFrom a vs).wf := by
  induction vs with
  | nil => intro m h a; exact h
  | cons v vs ih => intro m h a; exact ih (set_wf h a v) (a + 1)

theorem writeFrom_below {n : Nat} (vs : List Byte) :
    ∀ {m : Memory}, m.below n → ∀ a, a + vs.length ≤ n → (m.writeFrom a vs).below n := by
  induction vs with
  | nil => intro m h a _; exact h
  | cons v vs ih =>
    intro m h a ha
    rw [List.length_cons] at ha
    exact ih (set_below h (by omega) v) (a + 1) (by omega)

/-- What a cell holds after codes were written from cell `a` on: the code at its position, or what it held before. -/
theorem get?_writeFrom (vs : List Byte) :
    ∀ (m : Memory) (a i : Nat), (m.writeFrom a vs).get? i =
      if h : a ≤ i ∧ i - a < vs.length then some (vs[i - a]'h.2) else m.get? i := by
  induction vs with
  | nil => intro m a i; simp [Memory.writeFrom]
  | cons v vs ih =>
    intro m a i
    rw [Memory.writeFrom, ih]
    by_cases hlt : i < a
    · rw [dif_neg (by omega), dif_neg (by omega), get?_set_other _ _ (by omega)]
    · by_cases heq : i = a
      · subst heq
        rw [dif_neg (by omega), dif_pos (by simp), get?_set_same]
        simp
      · by_cases hin : i - (a + 1) < vs.length
        · rw [dif_pos ⟨by omega, hin⟩, dif_pos ⟨by omega, by simp; omega⟩]
          have : i - a = (i - (a + 1)) + 1 := by omega
          simp [this]
        · rw [dif_neg (by omega), dif_neg (by simp; omega), get?_set_other _ _ heq]

/-- The host's write of a cell, read back (20_memory.md R52). -/
theorem tinRead_set (s : State) (a i : Nat) (v : Byte) :
    (s.setTin (s.tin.set a v)).tinRead i = if i = a then v else s.tinRead i := by
  by_cases h : i = a
  · subst h; simp [State.tinRead, get?_set_same]
  · simp [State.tinRead, get?_set_other _ _ h, h]

/-- A command that writes a text writes exactly the cells of that text (20_memory.md R53). -/
theorem toutRead_writeTout (s : State) (codes : List Byte) (i : Nat) :
    (s.writeTout codes).toutRead i = if h : i < codes.length then codes[i] else s.toutRead i := by
  simp only [State.writeTout, State.toutRead, setTout_tout, get?_writeFrom]
  by_cases h : i < codes.length <;> simp [h]

end Sys2Proof.Machine
end

