-- ==== Sys2Proof/Laws/Ops.lean ====
section
/-! SUPPORT. How a command ends: everything `raise`, `succeed` and the shared endings can do. -/

namespace Sys2Proof.Machine

/-- A failing command changes `STATUS` and nothing else (60_exceptions.md R174). -/
@[simp] theorem raise_eq (st : Status) (s : State) : raise st s = .next (s.setStatus st.word) := rfl

@[simp] theorem succeed_eq (s : State) : succeed s = .next (s.setStatus Status.ok.word) := rfl

theorem status_word_toNat (st : Status) : st.word.toNat = st.code.toNat := by cases st <;> rfl

theorem status_word_le (st : Status) : st.word.toNat ≤ 9 := by cases st <;> decide

theorem status_word_injective {a b : Status} (h : a.word = b.word) : a = b := by
  revert h; cases a <;> cases b <;> decide

/-- Only `ST_OK` has the code 0. -/
@[simp] theorem status_word_eq_zero (st : Status) : st.word = 0#32 ↔ st = .ok := by cases st <;> decide

/-- The two endings of an inverse command (40_number_theory.md R95, R96). -/
theorem finishInverse_cases (inv : Option Int) (s : State) :
    (∃ v, inv = some v ∧ finishInverse inv s = .next ((s.setR0 v).setStatus Status.ok.word)) ∨
      (inv = none ∧ finishInverse inv s = .next (s.setStatus Status.noInverse.word)) := by
  cases inv with
  | none => exact .inr ⟨rfl, rfl⟩
  | some v => exact .inl ⟨v, rfl, rfl⟩

/-- The two endings of a stream command (42_alphabet_stream.md R125, R126). -/
theorem finishStream_cases (f : Int → Int) (p : Option (List Nat)) (s : State) :
    (∃ is, p = some is ∧ finishStream f p s =
        .next (((s.writeTout (is.map fun i : Nat => i2l (f i).toNat)).setOlen s.len).setStatus Status.ok.word)) ∨
      (p = none ∧ finishStream f p s = .next (s.setStatus Status.invalidChar.word)) := by
  cases p with
  | none => exact .inr ⟨rfl, rfl⟩
  | some is => exact .inl ⟨is, rfl, rfl⟩

end Sys2Proof.Machine
end

