-- ==== Sys2Proof/Laws/NumberTheory.lean ====
section
/-! SUPPORT. What the functions of the number theory unit compute (40_number_theory.md R90 to R97). -/

namespace Sys2Proof.Machine

/-! ### gcd -/

theorem gcdLoop_eq : ∀ (fuel u v : Nat), v ≤ fuel → gcdLoop fuel u v = Nat.gcd u v
  | 0, u, v, h => by simp [gcdLoop, Nat.le_zero.1 h]
  | fuel + 1, u, v, h => by
    rw [gcdLoop]
    split
    · simp [*]
    · have hlt := Nat.mod_lt u (Nat.pos_of_ne_zero ‹v ≠ 0›)
      rw [gcdLoop_eq fuel v (u % v) (by omega), Nat.gcd_comm v, ← Nat.gcd_rec, Nat.gcd_comm]

/-- The algorithm of R90 computes the greatest common divisor. -/
@[simp] theorem gcd_eq (a b : Int) : gcd a b = Int.gcd a b := gcdLoop_eq _ _ _ le_rfl

/-! ### Extended gcd -/

theorem egcdLoop_fuel : ∀ (fuel a m : Nat), a ≤ fuel → egcdLoop fuel a m = egcdNN a m := by
  have main : ∀ (f f' a m : Nat), a ≤ f → a ≤ f' → egcdLoop f a m = egcdLoop f' a m := by
    intro f
    induction f with
    | zero =>
      intro f' a m h _
      cases f' <;> simp [egcdLoop, Nat.le_zero.1 h]
    | succ f ih =>
      intro f' a m h h'
      cases f' with
      | zero => simp [egcdLoop, Nat.le_zero.1 h']
      | succ f' =>
        rw [egcdLoop, egcdLoop]
        split
        · rfl
        · have hlt := Nat.mod_lt m (Nat.pos_of_ne_zero ‹a ≠ 0›)
          rw [ih f' (m % a) a (by omega) (by omega)]
  intro fuel a m h
  exact main fuel a a m h le_rfl

/-- The base case of R92. -/
@[simp] theorem egcdNN_zero (m : Nat) : egcdNN 0 m = (m, 0, 1) := rfl

/-- The recursion step and the back-substitution of R92. -/
theorem egcdNN_pos {a : Nat} (h : 0 < a) (m : Nat) :
    egcdNN a m = ((egcdNN (m % a) a).1,
      (egcdNN (m % a) a).2.2 - ((m / a : Nat) : Int) * (egcdNN (m % a) a).2.1, (egcdNN (m % a) a).2.1) := by
  obtain ⟨a, rfl⟩ : ∃ k, a = k + 1 := ⟨a - 1, by omega⟩
  have hlt := Nat.mod_lt m h
  conv_lhs => rw [egcdNN, egcdLoop, if_neg (by omega), egcdLoop_fuel _ _ _ (by omega)]

/-- What the recursion of R92 returns: the gcd, a Bézout pair, and coefficients bounded by the operands. -/
theorem egcdNN_spec (a : Nat) : ∀ m : Nat,
    (egcdNN a m).1 = Nat.gcd a m ∧
      (a : Int) * (egcdNN a m).2.1 + m * (egcdNN a m).2.2 = (Nat.gcd a m : Nat) ∧
      (egcdNN a m).2.1.natAbs ≤ max m 1 ∧ (egcdNN a m).2.2.natAbs ≤ max a 1 := by
  induction a using Nat.strong_induction_on with
  | _ a ih =>
    intro m
    rcases Nat.eq_zero_or_pos a with rfl | ha
    · simp
    · have hgcd : Nat.gcd (m % a) a = Nat.gcd a m := (Nat.gcd_rec a m).symm
      have hdm : (m : Int) = a * (m / a : Nat) + (m % a : Nat) := by exact_mod_cast (Nat.div_add_mod m a).symm
      rcases Nat.eq_zero_or_pos (m % a) with h0 | h0
      · rw [egcdNN_pos ha, h0]
        rw [h0] at hgcd
        simp [← hgcd]
      · obtain ⟨hg, hb, hx, hy⟩ := ih (m % a) (Nat.mod_lt m ha) a
        rw [egcdNN_pos ha]
        generalize egcdNN (m % a) a = r at hg hb hx hy ⊢
        obtain ⟨g, x, y⟩ := r
        simp only at hg hb hx hy ⊢
        refine ⟨by rw [hg, hgcd], ?_, ?_, by omega⟩
        · rw [← hgcd, ← hb]
          linear_combination (x - 0) * hdm
        · have hq := Nat.mul_le_mul_left (m / a) (show x.natAbs ≤ a by omega)
          have h2 := Int.natAbs_sub_le y ((m / a : Nat) * x)
          rw [Int.natAbs_mul, Int.natAbs_natCast] at h2
          have h3 := Nat.div_add_mod m a
          rw [Nat.mul_comm] at h3
          omega

/-- What `egcd` returns for signed operands (40_number_theory.md R93, R94). -/
theorem egcd_spec (a m : Int) :
    (egcd a m).1 = Int.gcd a m ∧ a * (egcd a m).2.1 + m * (egcd a m).2.2 = (Int.gcd a m : Nat) ∧
      (egcd a m).2.1.natAbs ≤ max m.natAbs 1 ∧ (egcd a m).2.2.natAbs ≤ max a.natAbs 1 := by
  obtain ⟨hg, hb, hx, hy⟩ := egcdNN_spec a.natAbs m.natAbs
  have sign (z : Int) : z * signOf z = z.natAbs ∧ (signOf z).natAbs = 1 := by
    unfold signOf; split <;> constructor <;> omega
  unfold egcd
  generalize egcdNN a.natAbs m.natAbs = r at hg hb hx hy ⊢
  obtain ⟨g, x, y⟩ := r
  simp only at hg hb hx hy ⊢
  refine ⟨hg, ?_, ?_, ?_⟩
  · rw [← mul_assoc, ← mul_assoc, (sign a).1, (sign m).1, hb]; rfl
  · rw [Int.natAbs_mul, (sign a).2, one_mul]; exact hx
  · rw [Int.natAbs_mul, (sign m).2, one_mul]; exact hy

/-! ### Modular inverses -/

/-- The scan finds the least candidate of the last `r` of `0 .. n−1` that passes the test. -/
theorem minvBfScan_spec (num : Int) (n : Nat) : ∀ r : Nat, r ≤ n →
    (∃ i : Nat, minvBfScan num n r = some i ∧ n - r ≤ i ∧ i < n ∧ isInverse num n i = true ∧
        ∀ j : Nat, n - r ≤ j → j < i → isInverse num n j = false) ∨
      (minvBfScan num n r = none ∧ ∀ j : Nat, n - r ≤ j → j < n → isInverse num n j = false)
  | 0, _ => .inr ⟨rfl, fun j h h' => by omega⟩
  | r + 1, h => by
    rw [minvBfScan]
    by_cases ht : isInverse num n ((n - (r + 1) : Nat) : Int) = true
    · rw [if_pos ht]
      exact .inl ⟨n - (r + 1), rfl, le_rfl, by omega, ht, fun j h h' => by omega⟩
    · rw [if_neg ht]
      have step (j : Nat) (hj : n - (r + 1) ≤ j) : j = n - (r + 1) ∨ n - r ≤ j := by omega
      rcases minvBfScan_spec num n r (by omega) with ⟨i, hi, hlo, hhi, hinv, hmin⟩ | ⟨hn, hall⟩
      · refine .inl ⟨i, hi, by omega, hhi, hinv, fun j hj hji => ?_⟩
        rcases step j hj with rfl | hj
        · simpa using ht
        · exact hmin j hj hji
      · refine .inr ⟨hn, fun j hj hjn => ?_⟩
        rcases step j hj with rfl | hj
        · simpa using ht
        · exact hall j hj hjn

/-- `minv_bf` is the least candidate that passes the test of R95, `none` when there is none. -/
theorem minvBf_cases {num m : Int} (hm : 0 < m) :
    (∃ i : Nat, minvBf num m = some i ∧ (i : Int) < m ∧ isInverse num m i = true ∧
        ∀ j : Nat, j < i → isInverse num m j = false) ∨
      (minvBf num m = none ∧ ∀ j : Nat, (j : Int) < m → isInverse num m j = false) := by
  obtain ⟨n, rfl⟩ := Int.eq_ofNat_of_zero_le hm.le
  have hif : minvBf num n = minvBfScan num n n := by simp [minvBf]; omega
  rcases minvBfScan_spec num n n le_rfl with ⟨i, hi, -, hlt, hinv, hmin⟩ | ⟨hn, hall⟩
  · exact .inl ⟨i, hif.trans hi, by exact_mod_cast hlt, hinv, fun j hj => hmin j (by omega) hj⟩
  · exact .inr ⟨hif.trans hn, fun j hj => hall j (by omega) (by exact_mod_cast hj)⟩

/-- A non-positive modulus has no inverse under either method. -/
theorem minv_of_nonpos {num m : Int} (hm : m ≤ 0) : minvBf num m = none ∧ minvEe num m = none := by
  simp [minvBf, minvEe, hm]

/-- `minv_ee` for a positive modulus: the reduced coefficient when the operands are coprime, else `none` (R96). -/
theorem minvEe_eq {num m : Int} (hm : 0 < m) :
    minvEe num m = if Int.gcd num m = 1 then some ((egcd num m).2.1 % m) else none := by
  obtain ⟨hg, -⟩ := egcd_spec num m
  unfold minvEe
  rw [if_neg (by omega)]
  generalize egcd num m = r at hg ⊢
  obtain ⟨g, x, y⟩ := r
  simp only at hg ⊢
  subst hg
  by_cases h : Int.gcd num m = 1 <;> simp [h]

/-- An inverse of `num` modulo `m` found by `minv_ee` is in range and is an inverse. -/
theorem minvEe_some {num m v : Int} (h : minvEe num m = some v) :
    0 < m ∧ Int.gcd num m = 1 ∧ 0 ≤ v ∧ v < m ∧ (num * v) % m = 1 % m := by
  have hm : 0 < m := by
    by_contra hm
    simp [(minv_of_nonpos (num := num) (not_lt.1 hm)).2] at h
  rw [minvEe_eq hm] at h
  obtain ⟨-, hb, -⟩ := egcd_spec num m
  split at h
  · rename_i hg
    cases h
    refine ⟨hm, hg, Int.emod_nonneg _ hm.ne', Int.emod_lt_of_pos _ hm, ?_⟩
    rw [hg] at hb
    rw [Int.mul_emod, Int.emod_emod, ← Int.mul_emod]
    rw [show num * (egcd num m).2.1 = 1 - m * (egcd num m).2.2 by push_cast at hb; linarith]
    simp [Int.sub_emod]
  · cases h

/-- Two inverses of `num` modulo `m` in `0 .. m−1` are equal. -/
theorem inverse_unique {num m u v : Int} (hu : 0 ≤ u ∧ u < m) (hv : 0 ≤ v ∧ v < m)
    (h : (num * u) % m = 1 % m) (h' : (num * v) % m = 1 % m) : u = v := by
  have hmod : u ≡ v [ZMOD m] := by
    have h1 : num * u ≡ 1 [ZMOD m] := h
    have h2 : num * v ≡ 1 [ZMOD m] := h'
    calc u = 1 * u := (one_mul u).symm
      _ ≡ num * v * u [ZMOD m] := (h2.mul_right u).symm
      _ = num * u * v := by ring
      _ ≡ 1 * v [ZMOD m] := h1.mul_right v
      _ = v := one_mul v
  have := hmod
  unfold Int.ModEq at this
  rwa [Int.emod_eq_of_lt hu.1 hu.2, Int.emod_eq_of_lt hv.1 hv.2] at this

/-- An inverse exists only when the operands are coprime. -/
theorem gcd_eq_one_of_inverse {num m v : Int} (h : (num * v) % m = 1 % m) : Int.gcd num m = 1 := by
  obtain ⟨c, hc⟩ : m ∣ 1 - num * v := Int.ModEq.dvd h
  have hn := Int.gcd_dvd_left (a := num) (b := m)
  have hm := Int.gcd_dvd_right (a := num) (b := m)
  have h1 : ((Int.gcd num m : Nat) : Int) ∣ 1 := by
    have : (1 : Int) = num * v + m * c := by linarith
    rw [this]
    exact dvd_add (hn.mul_right v) (hm.mul_right c)
  exact_mod_cast Int.eq_one_of_dvd_one (by positivity) h1

/-- `minv_ee` answers the one inverse in `0 .. m−1` (40_number_theory.md R97). -/
theorem minvEe_eq_some_iff {num m v : Int} (hm : 0 < m) :
    minvEe num m = some v ↔ 0 ≤ v ∧ v < m ∧ (num * v) % m = 1 % m := by
  refine ⟨fun h => (minvEe_some h).2.2, fun ⟨h0, h1, h2⟩ => ?_⟩
  have hg := gcd_eq_one_of_inverse h2
  have hs : minvEe num m = some ((egcd num m).2.1 % m) := by rw [minvEe_eq hm, if_pos hg]
  obtain ⟨-, -, h0', h1', h2'⟩ := minvEe_some hs
  rw [hs, inverse_unique ⟨h0', h1'⟩ ⟨h0, h1⟩ h2' h2]

end Sys2Proof.Machine
end

