-- ==== Sys2Proof/Laws/Affine.lean ====
section
/-! SUPPORT. The affine transform: ranges and the two directions (41_affine.md R110 to R112). -/

namespace Sys2Proof.Machine

theorem enc_range {m : Int} (hm : 0 < m) (x k b : Int) : 0 ≤ enc x k b m ∧ enc x k b m < m :=
  ⟨Int.emod_nonneg _ hm.ne', Int.emod_lt_of_pos _ hm⟩

theorem decWith_range {m : Int} (hm : 0 < m) (inv y b : Int) : 0 ≤ decWith inv y b m ∧ decWith inv y b m < m :=
  ⟨Int.emod_nonneg _ hm.ne', Int.emod_lt_of_pos _ hm⟩

/-- Decrypting what was encrypted gives the value reduced modulo `m`. -/
theorem decWith_enc {k inv m : Int} (h : (k * inv) % m = 1 % m) (x b : Int) :
    decWith inv (enc x k b m) b m = x % m := by
  have h1 : k * inv ≡ 1 [ZMOD m] := h
  have h2 : enc x k b m ≡ k * x + b [ZMOD m] := Int.mod_modEq _ _
  have : inv * (enc x k b m - b) ≡ x [ZMOD m] :=
    calc inv * (enc x k b m - b) ≡ inv * (k * x + b - b) [ZMOD m] := (h2.sub_right b).mul_left inv
      _ = k * inv * x := by ring
      _ ≡ 1 * x [ZMOD m] := h1.mul_right x
      _ = x := one_mul x
  exact this

/-- Encrypting what was decrypted gives the value reduced modulo `m`. -/
theorem enc_decWith {k inv m : Int} (h : (k * inv) % m = 1 % m) (y b : Int) :
    enc (decWith inv y b m) k b m = y % m := by
  have h1 : k * inv ≡ 1 [ZMOD m] := h
  have h2 : decWith inv y b m ≡ inv * (y - b) [ZMOD m] := Int.mod_modEq _ _
  have : k * decWith inv y b m + b ≡ y [ZMOD m] :=
    calc k * decWith inv y b m + b ≡ k * (inv * (y - b)) + b [ZMOD m] := (h2.mul_left k).add_right b
      _ = k * inv * (y - b) + b := by ring
      _ ≡ 1 * (y - b) + b [ZMOD m] := (h1.mul_right _).add_right b
      _ = y := by ring
  exact this

end Sys2Proof.Machine
end

