-- ==== Sys2Proof/Laws/Text.lean ====
section
/-! SUPPORT. The alphabet lookup, the text operand and the stringifier (42_alphabet_stream.md R120 to R126). -/

namespace Sys2Proof.Machine

/-! ### The alphabet -/

/-- Every index has its letter, and the letter its index (42_alphabet_stream.md R122). -/
theorem l2i_i2l {i : Nat} (h : i < 52) : l2i (i2l i) = some i := by
  have : ∀ i : Fin 52, l2i (i2l i) = some i.1 := by decide
  exact this ⟨i, h⟩

/-- A code that has an index is the letter of that index (42_alphabet_stream.md R121, R122). -/
theorem l2i_some {c : Byte} {i : Nat} (h : l2i c = some i) : i < 52 ∧ i2l i = c := by
  have hc := c.isLt
  unfold l2i at h
  unfold i2l
  split at h
  · cases h
    refine ⟨by omega, ?_⟩
    rw [if_pos (by omega)]
    apply BitVec.eq_of_toNat_eq
    simp; omega
  · split at h
    · cases h
      refine ⟨by omega, ?_⟩
      rw [if_neg (by omega)]
      apply BitVec.eq_of_toNat_eq
      simp; omega
    · cases h

/-! ### The text operand -/

/-- A text has indices exactly when each of its characters has one; they are those, in order. -/
theorem letterIndices_eq_some_iff {t : List Byte} : ∀ {p : List Nat},
    letterIndices t = some p ↔ t.map l2i = p.map some := by
  induction t with
  | nil => intro p; cases p <;> simp [letterIndices]
  | cons c t ih =>
    intro p
    rw [letterIndices]
    cases hc : l2i c with
    | none => cases p <;> simp [hc]
    | some i =>
      cases p with
      | nil => simp
      | cons j p =>
        simp only [Option.map_eq_some_iff, List.map_cons, hc, List.cons.injEq, Option.some.injEq]
        constructor
        · rintro ⟨q, hq, rfl, rfl⟩
          exact ⟨rfl, ih.1 hq⟩
        · rintro ⟨rfl, h⟩
          exact ⟨p, ih.2 h, rfl, rfl⟩

theorem letterIndices_eq_none_iff {t : List Byte} : letterIndices t = none ↔ ∃ c ∈ t, l2i c = none := by
  induction t with
  | nil => simp [letterIndices]
  | cons c t ih =>
    rw [letterIndices]
    cases hc : l2i c with
    | none => simp [hc]
    | some i => simp [ih, hc]

theorem letterIndices_length {t : List Byte} {p : List Nat} (h : letterIndices t = some p) : p.length = t.length := by
  simpa using (congrArg List.length (letterIndices_eq_some_iff.1 h)).symm

theorem letterIndices_lt {t : List Byte} {p : List Nat} (h : letterIndices t = some p) : ∀ i ∈ p, i < 52 := by
  intro i hi
  have : some i ∈ t.map l2i := by rw [letterIndices_eq_some_iff.1 h]; exact List.mem_map_of_mem hi
  obtain ⟨c, -, hc⟩ := List.mem_map.1 this
  exact (l2i_some hc).1

@[simp] theorem text_length (s : State) : s.text.length = s.len.toNat := by simp [State.text]

/-- The text operand is a text of letters exactly when its cells are; its indices are theirs. -/
theorem letterIndices_text {s : State} {p : List Nat} :
    letterIndices s.text = some p ↔
      p.length = s.len.toNat ∧ ∀ i, (h : i < p.length) → l2i (s.tinRead i) = some p[i] := by
  rw [letterIndices_eq_some_iff]
  constructor
  · intro h
    have hl : p.length = s.len.toNat := by simpa using (congrArg List.length h).symm
    refine ⟨hl, fun i hi => ?_⟩
    have := congrArg (fun l => l[i]?) h
    simpa [State.text, hi, hl ▸ hi] using this
  · rintro ⟨hl, h⟩
    apply List.ext_getElem (by simp [hl])
    intro i hi hi'
    simpa [State.text] using h i (by simpa using hi')

theorem letterIndices_text_none {s : State} :
    letterIndices s.text = none ↔ ∃ i < s.len.toNat, l2i (s.tinRead i) = none := by
  simp [letterIndices_eq_none_iff, State.text]

/-! ### STRINGIFY -/

theorem base52Letters_fuel : ∀ (f n : Nat), n ≤ f → base52Letters f n = stringify n := by
  have main : ∀ (f f' n : Nat), n ≤ f → n ≤ f' → base52Letters f n = base52Letters f' n := by
    intro f
    induction f with
    | zero => intro f' n h _; cases f' <;> simp [base52Letters, Nat.le_zero.1 h]
    | succ f ih =>
      intro f' n h h'
      cases f' with
      | zero => simp [base52Letters, Nat.le_zero.1 h']
      | succ f' =>
        rw [base52Letters, base52Letters]
        split
        · rfl
        · have hlt : n / alphabetSize < n := Nat.div_lt_self (by omega) (by decide)
          rw [ih f' _ (by omega) (by omega)]
  exact fun f n h => main f n n h le_rfl

@[simp] theorem stringify_zero : stringify 0 = [] := rfl

/-- The least significant base-52 digit comes first (42_alphabet_stream.md R124). -/
theorem stringify_pos {n : Nat} (h : 0 < n) : stringify n = i2l (n % 52) :: stringify (n / 52) := by
  obtain ⟨n, rfl⟩ : ∃ k, n = k + 1 := ⟨n - 1, by omega⟩
  have hlt : (n + 1) / 52 < n + 1 := Nat.div_lt_self h (by decide)
  conv_lhs => rw [stringify, base52Letters, if_neg (by omega)]
  rw [alphabetSize, base52Letters_fuel _ _ (by omega)]

/-- The number of characters is the least `d` with `52^d > n` (42_alphabet_stream.md R124). -/
theorem stringify_length_le_iff (n : Nat) : ∀ d : Nat, (stringify n).length ≤ d ↔ n < 52 ^ d := by
  induction n using Nat.strong_induction_on with
  | _ n ih =>
    intro d
    rcases Nat.eq_zero_or_pos n with rfl | h
    · simp
    · rw [stringify_pos h]
      cases d with
      | zero => simp; omega
      | succ d =>
        rw [List.length_cons, Nat.add_le_add_iff_right, ih (n / 52) (Nat.div_lt_self h (by decide)) d,
          Nat.div_lt_iff_lt_mul (by decide), pow_succ]

/-- Position `i` holds the digit of weight `52^i` (42_alphabet_stream.md R124). -/
theorem stringify_getElem (n : Nat) : ∀ (i : Nat) (h : i < (stringify n).length),
    (stringify n)[i] = i2l (n / 52 ^ i % 52) := by
  induction n using Nat.strong_induction_on with
  | _ n ih =>
    intro i h
    rcases Nat.eq_zero_or_pos n with rfl | hn
    · simp at h
    · simp only [stringify_pos hn] at h ⊢
      cases i with
      | zero => simp
      | succ i =>
        rw [List.getElem_cons_succ, ih (n / 52) (Nat.div_lt_self hn (by decide)) i (by simpa using h),
          Nat.div_div_eq_div_mul, pow_succ, Nat.mul_comm]

end Sys2Proof.Machine
end

