-- ==== Sys2Proof/Laws/Block.lean ====
section
/-! SUPPORT. The stages of the block codec (43_block_codec.md R140 to R149). -/

namespace Sys2Proof.Machine

/-! ### The block modulus (R140) -/

/-- `M(w) = 52 * (100^w − 1) / 99`. -/
theorem blockModulus_eq (w : Nat) : 99 * blockModulus w + 52 = 52 * 100 ^ w := by
  induction w with
  | zero => rfl
  | succ w ih => rw [blockModulus, alphabetSize, pow_succ]; omega

theorem blockModulus_lt (w : Nat) : blockModulus w < 100 ^ w := by
  have h := blockModulus_eq w
  have : 0 < 100 ^ w := by positivity
  omega

theorem blockModulus_pos {w : Nat} (h : 0 < w) : 0 < blockModulus w := by
  cases w with
  | zero => omega
  | succ w => simp [blockModulus, alphabetSize]

theorem blockModulus_mono {q w : Nat} (h : q ≤ w) : blockModulus q ≤ blockModulus w := by
  have h1 := blockModulus_eq q
  have h2 := blockModulus_eq w
  have h3 : (100 : Nat) ^ q ≤ 100 ^ w := Nat.pow_le_pow_right (by norm_num) h
  omega

/-! ### Partition (R142) -/

theorem wholeBlocks_length (w : Nat) : ∀ (n : Nat) (p : List Nat), (wholeBlocks w n p).length = n
  | 0, _ => rfl
  | n + 1, p => by simp [wholeBlocks, wholeBlocks_length w n]

theorem wholeBlocks_flatten (w : Nat) : ∀ (n : Nat) (p : List Nat), p.length = n * w → (wholeBlocks w n p).flatten = p
  | 0, p, h => by simp_all [wholeBlocks]
  | n + 1, p, h => by
    rw [wholeBlocks, List.flatten_cons, wholeBlocks_flatten w n _ (by rw [List.length_drop, h]; rw [Nat.succ_mul]; omega)]
    exact List.take_append_drop w p

theorem wholeBlocks_size (w : Nat) : ∀ (n : Nat) (p : List Nat), p.length = n * w → ∀ b ∈ wholeBlocks w n p, b.length = w
  | 0, p, h => by simp [wholeBlocks]
  | n + 1, p, h => by
    rw [Nat.succ_mul] at h
    intro b hb
    rcases List.mem_cons.1 hb with rfl | hb
    · simp; omega
    · exact wholeBlocks_size w n _ (by rw [List.length_drop]; omega) b hb

theorem wholeBlocks_getElem (w : Nat) : ∀ (n : Nat) (p : List Nat) (j : Nat) (h : j < (wholeBlocks w n p).length),
    (wholeBlocks w n p)[j] = (p.drop (j * w)).take w
  | 0, p, j, h => by simp [wholeBlocks] at h
  | n + 1, p, j, h => by
    simp only [wholeBlocks] at h ⊢
    cases j with
    | zero => simp
    | succ j =>
      rw [List.getElem_cons_succ, wholeBlocks_getElem w n _ j (by simpa using h), List.drop_drop, Nat.succ_mul,
        Nat.add_comm]

/-- The letters of the leftmost block: `L mod w` of them when that is not 0 (R142). -/
theorem partition_eq (w : Nat) (p : List Nat) :
    partition w p = (if p.length % w = 0 then [] else [p.take (p.length % w)]) ++
      wholeBlocks w (p.length / w) (p.drop (p.length % w)) := by
  unfold partition
  split <;> simp [*]

theorem partition_flatten (w : Nat) (p : List Nat) : (partition w p).flatten = p := by
  have h := Nat.div_add_mod p.length w
  rw [partition_eq, List.flatten_append, wholeBlocks_flatten _ _ _ (by rw [List.length_drop, Nat.mul_comm]; omega)]
  split
  · simp [*]
  · simp

/-- The ceiling is the quotient, and one more when something is left over (00_scope.md R8). -/
theorem ceilDiv_eq {w : Nat} (hw : 0 < w) (n : Nat) : ceilDiv n w = n / w + if n % w = 0 then 0 else 1 := by
  have h := Nat.div_add_mod n w
  have hlt := Nat.mod_lt n hw
  unfold ceilDiv
  generalize n / w = q at h ⊢
  generalize n % w = r at h hlt ⊢
  subst h
  split
  · rw [show w * q + r + w - 1 = (w - 1) + w * q by omega, Nat.add_mul_div_left _ _ hw,
      Nat.div_eq_of_lt (a := w - 1) (by omega)]
    omega
  · rw [show w * q + r + w - 1 = (r - 1) + w * (q + 1) by rw [Nat.mul_succ]; omega, Nat.add_mul_div_left _ _ hw,
      Nat.div_eq_of_lt (a := r - 1) (by omega)]
    omega

/-- The number of blocks is `ceil(L / w)` (R142). -/
theorem partition_length {w : Nat} (hw : 0 < w) (p : List Nat) : (partition w p).length = ceilDiv p.length w := by
  rw [partition_eq, List.length_append, wholeBlocks_length, ceilDiv_eq hw, Nat.add_comm]
  split <;> rfl

/-- No block has more than `w` letters, and none is empty (R142, R143). -/
theorem partition_size {w : Nat} (hw : 0 < w) (p : List Nat) : ∀ b ∈ partition w p, 0 < b.length ∧ b.length ≤ w := by
  have h := Nat.div_add_mod p.length w
  have hlt := Nat.mod_lt p.length hw
  have hle := Nat.mod_le p.length w
  intro b hb
  rw [partition_eq] at hb
  rcases List.mem_append.1 hb with hb | hb
  · split at hb
    · simp at hb
    · rw [List.mem_singleton] at hb
      subst hb
      simp; omega
  · have := wholeBlocks_size w _ _ (by rw [List.length_drop, Nat.mul_comm]; omega) b hb
    omega

/-- Only the leftmost block can be short (R142). -/
theorem partition_tail_size {w : Nat} (p : List Nat) : ∀ b ∈ (partition w p).tail, b.length = w := by
  have h := Nat.div_add_mod p.length w
  intro b hb
  refine wholeBlocks_size w (p.length / w) (p.drop (p.length % w)) (by rw [List.length_drop, Nat.mul_comm]; omega) b ?_
  rw [partition_eq] at hb
  split at hb
  · exact List.mem_of_mem_tail (by simpa using hb)
  · simpa using hb

/-! ### Block values and groups (R143, R148) -/

theorem blockValue_append (l k : List Nat) : blockValue (l ++ k) = blockValue l * 100 ^ k.length + blockValue k := by
  induction l with
  | nil => simp [blockValue]
  | cons i l ih => simp only [List.cons_append, blockValue, ih, List.length_append, pow_add]; ring

theorem blockValue_lt {l : List Nat} (h : ∀ i ∈ l, i < 100) : blockValue l < 100 ^ l.length := by
  induction l with
  | nil => simp [blockValue]
  | cons i l ih =>
    have h1 := ih fun j hj => h j (List.mem_cons_of_mem _ hj)
    have h2 := Nat.mul_le_mul_right (100 ^ l.length) (Nat.le_of_lt_succ (h i List.mem_cons_self))
    rw [blockValue, List.length_cons, pow_succ]
    omega

/-- A block of letter indices has a value below the block modulus (R143). -/
theorem blockValue_lt_modulus {l : List Nat} (h : ∀ i ∈ l, i < 52) (hl : 0 < l.length) :
    blockValue l < blockModulus l.length := by
  have key : ∀ l : List Nat, (∀ i ∈ l, i < 52) → 99 * blockValue l + 51 ≤ 51 * 100 ^ l.length := by
    intro l
    induction l with
    | nil => intro _; simp [blockValue]
    | cons i l ih =>
      intro h
      have h1 := ih fun j hj => h j (List.mem_cons_of_mem _ hj)
      have h2 := Nat.mul_le_mul_right (100 ^ l.length) (Nat.le_of_lt_succ (h i List.mem_cons_self))
      rw [blockValue, List.length_cons, pow_succ]
      omega
  have h1 := key l h
  have h2 := blockModulus_eq l.length
  have h3 : (100 : Nat) ^ 1 ≤ 100 ^ l.length := Nat.pow_le_pow_right (by norm_num) hl
  omega

/-- The value of a block is read back group by group, most significant first (R143, R148). -/
theorem blockValue_group {l : List Nat} (h : ∀ i ∈ l, i < 100) (t : Nat) (ht : t < l.length) :
    blockValue l / 100 ^ (l.length - 1 - t) % 100 = l[t] := by
  induction l generalizing t with
  | nil => simp at ht
  | cons i l ih =>
    have hl : ∀ j ∈ l, j < 100 := fun j hj => h j (List.mem_cons_of_mem _ hj)
    have hi := h i List.mem_cons_self
    cases t with
    | zero =>
      simp only [blockValue, List.length_cons, Nat.add_sub_cancel, Nat.sub_zero, List.getElem_cons_zero]
      rw [Nat.mul_comm, Nat.mul_add_div (by positivity), Nat.div_eq_of_lt (blockValue_lt hl), Nat.add_zero,
        Nat.mod_eq_of_lt hi]
    | succ t =>
      have htl : t < l.length := by simpa using ht
      rw [List.getElem_cons_succ, ← ih hl t htl]
      have hexp : (i :: l).length - 1 - (t + 1) = l.length - 1 - t := by simp; omega
      have hpow : 100 ^ l.length = 100 ^ (l.length - 1 - t) * (100 * 100 ^ t) := by
        rw [← pow_succ', ← pow_add]; congr 1; omega
      rw [hexp, blockValue, hpow, show i * (100 ^ (l.length - 1 - t) * (100 * 100 ^ t)) + blockValue l
        = 100 ^ (l.length - 1 - t) * (100 * (i * 100 ^ t)) + blockValue l by ring, Nat.mul_add_div (by positivity),
        Nat.mul_add_mod]

/-- The `w` groups of a block of at most `w` letters are its indices behind groups `00` (R148). -/
theorem digitGroups_blockValue {w : Nat} {l : List Nat} (h : ∀ i ∈ l, i < 100) (hl : l.length ≤ w) :
    digitGroups w (blockValue l) = List.replicate (w - l.length) 0 ++ l := by
  have hpad : ∀ n, blockValue (List.replicate n 0 ++ l) = blockValue l := by
    intro n
    induction n with
    | zero => rfl
    | succ n ih => simp [List.replicate_succ, blockValue, ih]
  have hlen : (List.replicate (w - l.length) 0 ++ l).length = w := by simp; omega
  have hall : ∀ i ∈ List.replicate (w - l.length) 0 ++ l, i < 100 := by
    intro i hi
    rcases List.mem_append.1 hi with hi | hi
    · rw [(List.mem_replicate.1 hi).2]; norm_num
    · exact h i hi
  apply List.ext_getElem
  · simp [digitGroups]; omega
  · intro t ht ht'
    rw [← blockValue_group hall t ht', hpad, hlen]
    simp [digitGroups]

/-! ### Joining and chunking (R145, R147) -/

theorem joinBlocks_lt {w : Nat} {es : List Nat} (h : ∀ e ∈ es, e < 100 ^ w) :
    joinBlocks w es < 100 ^ (w * es.length) := by
  induction es with
  | nil => simp [joinBlocks]
  | cons e es ih =>
    have h1 := ih fun j hj => h j (List.mem_cons_of_mem _ hj)
    have h2 := Nat.mul_le_mul_right (100 ^ (w * es.length)) (Nat.succ_le_of_lt (h e List.mem_cons_self))
    rw [joinBlocks, List.length_cons, Nat.mul_succ, pow_add, Nat.mul_comm (100 ^ (w * es.length))]
    rw [Nat.succ_mul] at h2
    omega

/-- The encrypted blocks are read back from their concatenation (R145, R147). -/
theorem joinBlocks_chunk {w : Nat} {es : List Nat} (h : ∀ e ∈ es, e < 100 ^ w) (j : Nat) (hj : j < es.length) :
    joinBlocks w es / 100 ^ (w * (es.length - 1 - j)) % 100 ^ w = es[j] := by
  induction es generalizing j with
  | nil => simp at hj
  | cons e es ih =>
    have hes : ∀ e ∈ es, e < 100 ^ w := fun j hj => h j (List.mem_cons_of_mem _ hj)
    cases j with
    | zero =>
      simp only [joinBlocks, List.length_cons, Nat.add_sub_cancel, Nat.sub_zero, List.getElem_cons_zero]
      rw [Nat.mul_comm e, Nat.mul_add_div (by positivity), Nat.div_eq_of_lt (joinBlocks_lt hes), Nat.add_zero,
        Nat.mod_eq_of_lt (h e List.mem_cons_self)]
    | succ j =>
      have hjl : j < es.length := by simpa using hj
      rw [List.getElem_cons_succ, ← ih hes j hjl]
      have hexp : (e :: es).length - 1 - (j + 1) = es.length - 1 - j := by simp; omega
      have hpow : 100 ^ (w * es.length) = 100 ^ (w * (es.length - 1 - j)) * (100 ^ w * 100 ^ (w * j)) := by
        rw [← pow_add, ← pow_add]; congr 1
        obtain ⟨d, hd⟩ : ∃ d, es.length = d + 1 + j := ⟨es.length - 1 - j, by omega⟩
        rw [hd, show d + 1 + j - 1 - j = d by omega]; ring
      rw [hexp, joinBlocks, hpow, show e * (100 ^ (w * (es.length - 1 - j)) * (100 ^ w * 100 ^ (w * j))) + joinBlocks w es
        = 100 ^ (w * (es.length - 1 - j)) * (100 ^ w * (e * 100 ^ (w * j))) + joinBlocks w es by ring,
        Nat.mul_add_div (by positivity), Nat.mul_add_mod]

/-! ### Decimal digits (00_scope.md R8) -/

/-- `digits10(n)` is the least `d ≥ 1` with `n < 10^d`. -/
theorem digits10_le_iff (n : Nat) : ∀ d : Nat, 0 < d → (digits10 n ≤ d ↔ n < 10 ^ d) := by
  have main : ∀ f n d : Nat, n ≤ f → 0 < d → (digits10Loop f n ≤ d ↔ n < 10 ^ d) := by
    intro f
    induction f with
    | zero =>
      intro n d hn hd
      simp [digits10Loop, Nat.le_zero.1 hn]; omega
    | succ f ih =>
      intro n d hn hd
      rw [digits10Loop]
      have hpow : (10 : Nat) ^ 1 ≤ 10 ^ d := Nat.pow_le_pow_right (by norm_num) hd
      split
      · constructor <;> intro <;> omega
      · obtain ⟨d, rfl⟩ : ∃ k, d = k + 1 := ⟨d - 1, by omega⟩
        rcases Nat.eq_zero_or_pos d with rfl | hd'
        · constructor
          · intro h
            have : digits10Loop f (n / 10) = 0 := by omega
            exfalso
            revert this
            cases f with
            | zero => simp [digits10Loop]
            | succ f => rw [digits10Loop]; split <;> omega
          · intro h; omega
        · rw [Nat.add_le_add_iff_right, ih (n / 10) d (by omega) hd', Nat.div_lt_iff_lt_mul (by norm_num), pow_succ]
  exact fun d hd => main n n d le_rfl hd

theorem digits10_pos (n : Nat) : 0 < digits10 n := by
  unfold digits10
  cases n with
  | zero => decide
  | succ n => rw [digits10Loop]; split <;> omega

/-- There is always a chunk, and there are at most `n` exactly when the ciphertext has at most `n` blocks' digits (R147). -/
theorem chunkCount_le_iff {w : Nat} (hw : 0 < w) (c n : Nat) (hn : 0 < n) : chunkCount w c ≤ n ↔ c < 100 ^ (w * n) := by
  have hpos := digits10_pos c
  have key : chunkCount w c ≤ n ↔ digits10 c ≤ 2 * w * n := by
    unfold chunkCount ceilDiv
    rw [← Nat.lt_succ_iff, Nat.div_lt_iff_lt_mul (by omega), Nat.mul_comm n.succ, Nat.mul_succ]
    generalize 2 * w * n = k
    omega
  rw [key, digits10_le_iff c _ (by positivity), Nat.mul_assoc, pow_mul]
  norm_num

theorem chunkCount_pos {w : Nat} (hw : 0 < w) (c : Nat) : 0 < chunkCount w c := by
  have hpos := digits10_pos c
  exact Nat.div_pos (by omega) (by omega)

end Sys2Proof.Machine
end

