-- ==== Sys2Proof/Laws/Decode.lean ====
section
/-! SUPPORT. The decoder and the encoder: the two fields of a word determine it (30_encoding.md R70). -/

namespace Sys2Proof

/-- A command word is its two fields, one above the other. -/
theorem word_of_fields (w : Word) : rsvdField w ++ opcField w = w := by
  apply BitVec.eq_of_getElem_eq
  intro i hi
  rw [BitVec.getElem_append]
  by_cases h : i < 8
  · simpa [opcField, h] using BitVec.getLsbD_eq_getElem (x := w) (by omega)
  · have : 8 + (i - 8) = i := by omega
    simpa [rsvdField, h, this] using BitVec.getLsbD_eq_getElem (x := w) (by omega)

@[simp] theorem rsvdField_encode (i : Instr) : rsvdField (encode i) = 0 := by cases i <;> decide

@[simp] theorem opcField_encode (i : Instr) : opcField (encode i) = i.opcode := by cases i <;> decide

end Sys2Proof
end

