-- ==== Sys2Proof/Laws/Exec.lean ====
section
/-! SUPPORT. Everything each meaning can do: its outcomes, each with the condition under which it is the outcome. -/

namespace Sys2Proof.Machine

theorem execGcd_eq (s : State) : execGcd s = .next ((s.setR0 (Int.gcd s.opa s.opm : Nat)).setStatus Status.ok.word) := by
  rw [execGcd, gcd_eq, succeed_eq]

theorem execEgcd_eq (s : State) : execEgcd s = .next ((((s.setR0 (Int.gcd s.opa s.opm : Nat)).setR1
    (egcd s.opa s.opm).2.1).setR2 (egcd s.opa s.opm).2.2).setStatus Status.ok.word) := by
  have h := (egcd_spec s.opa s.opm).1
  unfold execEgcd
  generalize egcd s.opa s.opm = r at h ⊢
  obtain ⟨g, x, y⟩ := r
  simp only at h
  subst h
  rfl

/-- MINV_BF: no inverse, or one in `0 .. OPM−1` that passes the test of R95. -/
theorem execMinvBf_cases (s : State) :
    (minvBf s.opa s.opm = none ∧ execMinvBf s = .next (s.setStatus Status.noInverse.word)) ∨
      ∃ v, minvBf s.opa s.opm = some v ∧ 0 < s.opm ∧ 0 ≤ v ∧ v < s.opm ∧ isInverse s.opa s.opm v = true ∧
        execMinvBf s = .next ((s.setR0 v).setStatus Status.ok.word) := by
  rcases finishInverse_cases (minvBf s.opa s.opm) s with ⟨v, hv, he⟩ | ⟨hv, he⟩
  · refine .inr ⟨v, hv, ?_⟩
    rcases le_or_gt s.opm 0 with hm | hm
    · simp [(minv_of_nonpos hm).1] at hv
    · rcases minvBf_cases (num := s.opa) hm with ⟨i, hi, hlt, hinv, -⟩ | ⟨hn, -⟩
      · rw [hv] at hi
        cases hi
        exact ⟨hm, by positivity, hlt, hinv, he⟩
      · simp [hv] at hn
  · exact .inl ⟨hv, he⟩

/-- MINV_EE: no inverse, or the one in `0 .. OPM−1`. -/
theorem execMinvEe_cases (s : State) :
    (minvEe s.opa s.opm = none ∧ execMinvEe s = .next (s.setStatus Status.noInverse.word)) ∨
      ∃ v, minvEe s.opa s.opm = some v ∧ 0 < s.opm ∧ 0 ≤ v ∧ v < s.opm ∧
        execMinvEe s = .next ((s.setR0 v).setStatus Status.ok.word) := by
  rcases finishInverse_cases (minvEe s.opa s.opm) s with ⟨v, hv, he⟩ | ⟨hv, he⟩
  · obtain ⟨hm, -, h0, h1, -⟩ := minvEe_some hv
    exact .inr ⟨v, hv, hm, h0, h1, he⟩
  · exact .inl ⟨hv, he⟩

theorem execAffEnc_cases (s : State) :
    (s.opm ≤ 0 ∧ execAffEnc s = .next (s.setStatus Status.invalidModulus.word)) ∨
      (0 < s.opm ∧ execAffEnc s = .next ((s.setR0 (enc s.opa s.keyk s.keyb s.opm)).setStatus Status.ok.word)) := by
  unfold execAffEnc
  split
  · exact .inl ⟨‹_›, rfl⟩
  · exact .inr ⟨by omega, rfl⟩

theorem execAffDec_cases (s : State) :
    (s.opm ≤ 0 ∧ execAffDec s = .next (s.setStatus Status.invalidModulus.word)) ∨
      (0 < s.opm ∧ minvEe s.keyk s.opm = none ∧ execAffDec s = .next (s.setStatus Status.nonInvertibleKey.word)) ∨
      ∃ inv, 0 < s.opm ∧ minvEe s.keyk s.opm = some inv ∧
        execAffDec s = .next ((s.setR0 (decWith inv s.opa s.keyb s.opm)).setStatus Status.ok.word) := by
  unfold execAffDec
  split
  · exact .inl ⟨‹_›, rfl⟩
  · unfold dec
    cases h : minvEe s.keyk s.opm with
    | none => exact .inr (.inl ⟨by omega, rfl, rfl⟩)
    | some inv => exact .inr (.inr ⟨inv, by omega, rfl, rfl⟩)

theorem execStringify_cases (s : State) :
    (s.opa < 0 ∧ execStringify s = .next (s.setStatus Status.operandRange.word)) ∨
      (0 ≤ s.opa ∧ s.cfg.maxLen < (stringify s.opa.toNat).length ∧
        execStringify s = .next (s.setStatus Status.resultRange.word)) ∨
      (0 ≤ s.opa ∧ (stringify s.opa.toNat).length ≤ s.cfg.maxLen ∧
        execStringify s = .next (((s.writeTout (stringify s.opa.toNat)).setOlen
          (BitVec.ofNat 32 (stringify s.opa.toNat).length)).setStatus Status.ok.word)) := by
  unfold execStringify
  split
  · exact .inl ⟨‹_›, rfl⟩
  · split
    · exact .inr (.inl ⟨by omega, ‹_›, rfl⟩)
    · exact .inr (.inr ⟨by omega, by omega, rfl⟩)

theorem execStrEnc_cases (s : State) :
    (s.cfg.maxLen < s.len.toNat ∧ execStrEnc s = .next (s.setStatus Status.operandRange.word)) ∨
      (s.len.toNat ≤ s.cfg.maxLen ∧ letterIndices s.text = none ∧
        execStrEnc s = .next (s.setStatus Status.invalidChar.word)) ∨
      ∃ p, s.len.toNat ≤ s.cfg.maxLen ∧ letterIndices s.text = some p ∧
        execStrEnc s = .next (((s.writeTout (p.map fun i : Nat => i2l (enc i s.keyk s.keyb 52).toNat)).setOlen s.len).setStatus
          Status.ok.word) := by
  unfold execStrEnc
  split
  · exact .inl ⟨‹_›, rfl⟩
  · cases h : letterIndices s.text with
    | none => exact .inr (.inl ⟨by omega, rfl, rfl⟩)
    | some p => exact .inr (.inr ⟨p, by omega, rfl, rfl⟩)

theorem execStrDec_cases (s : State) :
    (s.cfg.maxLen < s.len.toNat ∧ execStrDec s = .next (s.setStatus Status.operandRange.word)) ∨
      (s.len.toNat ≤ s.cfg.maxLen ∧ minvEe s.keyk 52 = none ∧
        execStrDec s = .next (s.setStatus Status.nonInvertibleKey.word)) ∨
      (∃ inv, s.len.toNat ≤ s.cfg.maxLen ∧ minvEe s.keyk 52 = some inv ∧ letterIndices s.text = none ∧
        execStrDec s = .next (s.setStatus Status.invalidChar.word)) ∨
      ∃ inv p, s.len.toNat ≤ s.cfg.maxLen ∧ minvEe s.keyk 52 = some inv ∧ letterIndices s.text = some p ∧
        execStrDec s = .next (((s.writeTout (p.map fun i : Nat => i2l (decWith inv i s.keyb 52).toNat)).setOlen s.len).setStatus
          Status.ok.word) := by
  unfold execStrDec
  split
  · exact .inl ⟨‹_›, rfl⟩
  · simp only [alphabetSize, Nat.cast_ofNat]
    cases hk : minvEe s.keyk 52 with
    | none => exact .inr (.inl ⟨by omega, rfl, rfl⟩)
    | some inv =>
      cases h : letterIndices s.text with
      | none => exact .inr (.inr (.inl ⟨inv, by omega, rfl, rfl, rfl⟩))
      | some p => exact .inr (.inr (.inr ⟨inv, p, by omega, rfl, rfl, rfl⟩))

theorem execBlkEnc_cases (s : State) :
    ((s.cfg.maxLen < s.len.toNat ∨ s.cfg.maxWidth < s.width.toNat) ∧
        execBlkEnc s = .next (s.setStatus Status.operandRange.word)) ∨
      (s.len.toNat ≤ s.cfg.maxLen ∧ s.width.toNat ≤ s.cfg.maxWidth ∧
        ((s.width.toNat = 0 ∧ execBlkEnc s = .next (s.setStatus Status.invalidModulus.word)) ∨
          (0 < s.width.toNat ∧ letterIndices s.text = none ∧
            execBlkEnc s = .next (s.setStatus Status.invalidChar.word)) ∨
          ∃ p, 0 < s.width.toNat ∧ letterIndices s.text = some p ∧
            ((s.fits (ciphertext p s.keyk s.keyb s.width.toNat) = false ∧
                execBlkEnc s = .next (s.setStatus Status.resultRange.word)) ∨
              (s.fits (ciphertext p s.keyk s.keyb s.width.toNat) = true ∧
                execBlkEnc s = .next ((s.setR0 (ciphertext p s.keyk s.keyb s.width.toNat)).setStatus
                  Status.ok.word))))) := by
  unfold execBlkEnc
  by_cases h1 : s.len.toNat > s.cfg.maxLen ∨ s.width.toNat > s.cfg.maxWidth
  · rw [if_pos h1]; exact .inl ⟨h1, rfl⟩
  · rw [if_neg h1]
    refine .inr ⟨by omega, by omega, ?_⟩
    split
    · exact .inl ⟨‹_›, rfl⟩
    · cases h : letterIndices s.text with
      | none => exact .inr (.inl ⟨by omega, rfl, rfl⟩)
      | some p =>
        refine .inr (.inr ⟨p, by omega, rfl, ?_⟩)
        cases hf : s.fits (ciphertext p s.keyk s.keyb s.width.toNat) with
        | false => exact .inl ⟨rfl, by simp [hf]⟩
        | true => exact .inr ⟨rfl, by simp [hf]⟩

theorem execBlkDec_cases (s : State) :
    ((s.opa < 0 ∨ s.cfg.maxLen < s.len.toNat ∨ s.cfg.maxWidth < s.width.toNat) ∧
        execBlkDec s = .next (s.setStatus Status.operandRange.word)) ∨
      (0 ≤ s.opa ∧ s.len.toNat ≤ s.cfg.maxLen ∧ s.width.toNat ≤ s.cfg.maxWidth ∧
        ((s.width.toNat = 0 ∧ execBlkDec s = .next (s.setStatus Status.invalidModulus.word)) ∨
          (0 < s.width.toNat ∧ minvEe s.keyk (blockModulus s.width.toNat) = none ∧
            execBlkDec s = .next (s.setStatus Status.nonInvertibleKey.word)) ∨
          ∃ inv, 0 < s.width.toNat ∧ minvEe s.keyk (blockModulus s.width.toNat) = some inv ∧
            ((chunkCount s.width.toNat s.opa.toNat * s.width.toNat < s.len.toNat ∧
                execBlkDec s = .next (s.setStatus Status.shortCiphertext.word)) ∨
              (s.len.toNat ≤ chunkCount s.width.toNat s.opa.toNat * s.width.toNat ∧
                (∃ i ∈ recoveredIndices inv s.keyb s.width.toNat s.opa.toNat, 51 < i) ∧
                execBlkDec s = .next (s.setStatus Status.indexRange.word)) ∨
              (s.len.toNat ≤ chunkCount s.width.toNat s.opa.toNat * s.width.toNat ∧
                (∀ i ∈ recoveredIndices inv s.keyb s.width.toNat s.opa.toNat, i ≤ 51) ∧
                execBlkDec s = .next (((s.writeTout ((lastOf s.len.toNat
                  (recoveredIndices inv s.keyb s.width.toNat s.opa.toNat)).map i2l)).setOlen s.len).setStatus
                  Status.ok.word))))) := by
  unfold execBlkDec
  by_cases h1 : s.opa < 0 ∨ s.len.toNat > s.cfg.maxLen ∨ s.width.toNat > s.cfg.maxWidth
  · rw [if_pos h1]; exact .inl ⟨h1, rfl⟩
  · rw [if_neg h1]
    refine .inr ⟨by omega, by omega, by omega, ?_⟩
    split
    · exact .inl ⟨‹_›, rfl⟩
    · cases hk : minvEe s.keyk (blockModulus s.width.toNat) with
      | none => exact .inr (.inl ⟨by omega, rfl, rfl⟩)
      | some inv =>
        refine .inr (.inr ⟨inv, by omega, rfl, ?_⟩)
        dsimp only
        split
        · exact .inl ⟨by omega, rfl⟩
        · split
          · rename_i h
            exact .inr (.inl ⟨by omega, by simpa using h, rfl⟩)
          · rename_i h
            exact .inr (.inr ⟨by omega, by simpa using h, rfl⟩)

/-! ### Lengths -/

/-- The recovered index sequence has `nd*w` entries (43_block_codec.md R148). -/
theorem recoveredIndices_length (inv b : Int) (w c : Nat) :
    (recoveredIndices inv b w c).length = chunkCount w c * w := by
  have flat : ∀ l : List Nat, (l.flatMap fun y : Nat => digitGroups w (decWith inv y b (blockModulus w)).toNat).length =
      l.length * w := by
    intro l
    induction l with
    | nil => simp
    | cons y l ih => rw [List.flatMap_cons, List.length_append, ih, List.length_cons, Nat.succ_mul]; simp [digitGroups]; omega
  rw [recoveredIndices, flat]
  simp [chunks]

/-- Truncation keeps as many letters as `LEN` asks for when there are so many (43_block_codec.md R149). -/
theorem lastOf_length {n : Nat} {l : List Nat} (h : n ≤ l.length) : (lastOf n l).length = n := by
  simp [lastOf]; omega

/-! ### All commands at once -/

/-- A value no larger than a representable one, or than 1, is representable (10_state.md R21). -/
theorem fits_of_le {s : State} (h : s.cfg.wf = true) {x m : Int} (hm : s.fits m = true)
    (hx : x.natAbs ≤ max m.natAbs 1) : s.fits x = true := by
  unfold State.fits IntBits.fits at *
  unfold Config.wf IntBits.wf at h
  cases hb : s.cfg.intBits with
  | unbounded => rfl
  | finite n =>
    simp [hb] at *
    have : 2 ^ 1 ≤ 2 ^ (n - 1) := Nat.pow_le_pow_right (by norm_num) (by omega)
    omega

/-- The gcd of representable operands is representable (40_number_theory.md R91). -/
theorem fits_gcd {s : State} {a m : Int} (ha : s.fits a = true) (hm : s.fits m = true) :
    s.fits (Int.gcd a m : Nat) = true := by
  unfold State.fits IntBits.fits at *
  cases hb : s.cfg.intBits with
  | unbounded => rfl
  | finite n =>
    simp only [hb, decide_eq_true_eq, Int.natAbs_natCast] at *
    rcases Nat.eq_zero_or_pos a.natAbs with h | h
    · rw [Int.natAbs_eq_zero.1 h, Int.zero_gcd]; exact hm
    · exact le_trans (Nat.gcd_le_left _ h) ha

/-- States that hold the same input text have the same text operand (10_state.md R30). -/
theorem text_eq_of_sameText {s s' : State} (h : SameText s s') : s'.text = s.text := by
  unfold State.text
  rw [← h.1]
  exact List.map_congr_left fun j hj => (h.2 j (by simpa using hj)).symm

/-- Everything a command can do: end with another code than `ST_OK` and change `STATUS` alone, or end with `ST_OK` and
write `R0`, the three results of EGCD, or a text and its length. -/
theorem exec_cases (i : Instr) (s : State) :
    (∃ st : Status, st ≠ .ok ∧ st.code.toNat ∈ possibleCodes i ∧ exec i s = .next (s.setStatus st.word)) ∨
      (i ∉ [Instr.stringify, .strEnc, .strDec, .blkDec, .egcd] ∧ ∃ v, (EngineInv s → s.fits v = true) ∧
        exec i s = .next ((s.setR0 v).setStatus Status.ok.word)) ∨
      (i = .egcd ∧ exec i s = .next ((((s.setR0 (Int.gcd s.opa s.opm : Nat)).setR1 (egcd s.opa s.opm).2.1).setR2
        (egcd s.opa s.opm).2.2).setStatus Status.ok.word)) ∨
      (i ∈ [Instr.stringify, .strEnc, .strDec, .blkDec] ∧ ∃ l : List Byte, l.length ≤ s.cfg.maxLen ∧
        exec i s = .next (((s.writeTout l).setOlen (BitVec.ofNat 32 l.length)).setStatus Status.ok.word)) := by
  have inRange {v : Int} (h0 : 0 ≤ v) (h1 : v < s.opm) (hi : EngineInv s) : s.fits v = true :=
    fits_of_le hi.cfg_wf (hi.ints_fit .opm) (by simp only [State.readInt]; omega)
  have olen {n : Nat} (h : n = s.len.toNat) : s.len = BitVec.ofNat 32 n := by subst h; simp
  cases i with
  | gcd => exact .inr (.inl ⟨by decide, _, fun h => fits_gcd (h.ints_fit .opa) (h.ints_fit .opm), execGcd_eq s⟩)
  | egcd => exact .inr (.inr (.inl ⟨rfl, execEgcd_eq s⟩))
  | minvBf =>
    rcases execMinvBf_cases s with ⟨-, h⟩ | ⟨v, -, -, h0, h1, -, h⟩
    · exact .inl ⟨_, by decide, by decide, h⟩
    · exact .inr (.inl ⟨by decide, v, inRange h0 h1, h⟩)
  | minvEe =>
    rcases execMinvEe_cases s with ⟨-, h⟩ | ⟨v, -, -, h0, h1, h⟩
    · exact .inl ⟨_, by decide, by decide, h⟩
    · exact .inr (.inl ⟨by decide, v, inRange h0 h1, h⟩)
  | affEnc =>
    rcases execAffEnc_cases s with ⟨-, h⟩ | ⟨hm, h⟩
    · exact .inl ⟨_, by decide, by decide, h⟩
    · obtain ⟨h0, h1⟩ := enc_range hm s.opa s.keyk s.keyb
      exact .inr (.inl ⟨by decide, _, inRange h0 h1, h⟩)
  | affDec =>
    rcases execAffDec_cases s with ⟨-, h⟩ | ⟨-, -, h⟩ | ⟨inv, hm, -, h⟩
    · exact .inl ⟨_, by decide, by decide, h⟩
    · exact .inl ⟨_, by decide, by decide, h⟩
    · obtain ⟨h0, h1⟩ := decWith_range hm inv s.opa s.keyb
      exact .inr (.inl ⟨by decide, _, inRange h0 h1, h⟩)
  | stringify =>
    rcases execStringify_cases s with ⟨-, h⟩ | ⟨-, -, h⟩ | ⟨-, hl, h⟩
    · exact .inl ⟨_, by decide, by decide, h⟩
    · exact .inl ⟨_, by decide, by decide, h⟩
    · exact .inr (.inr (.inr ⟨by decide, _, hl, h⟩))
  | strEnc =>
    rcases execStrEnc_cases s with ⟨-, h⟩ | ⟨-, -, h⟩ | ⟨p, hl, hp, h⟩
    · exact .inl ⟨_, by decide, by decide, h⟩
    · exact .inl ⟨_, by decide, by decide, h⟩
    · have hlen := letterIndices_length hp
      rw [text_length] at hlen
      rw [olen (n := (p.map fun j : Nat => i2l (enc j s.keyk s.keyb 52).toNat).length) (by simpa using hlen)] at h
      exact .inr (.inr (.inr ⟨by decide, _, by simp; omega, h⟩))
  | strDec =>
    rcases execStrDec_cases s with ⟨-, h⟩ | ⟨-, -, h⟩ | ⟨_, -, -, -, h⟩ | ⟨inv, p, hl, -, hp, h⟩
    · exact .inl ⟨_, by decide, by decide, h⟩
    · exact .inl ⟨_, by decide, by decide, h⟩
    · exact .inl ⟨_, by decide, by decide, h⟩
    · have hlen := letterIndices_length hp
      rw [text_length] at hlen
      rw [olen (n := (p.map fun j : Nat => i2l (decWith inv j s.keyb 52).toNat).length) (by simpa using hlen)] at h
      exact .inr (.inr (.inr ⟨by decide, _, by simp; omega, h⟩))
  | blkEnc =>
    rcases execBlkEnc_cases s with ⟨-, h⟩ | ⟨-, -, ⟨-, h⟩ | ⟨-, -, h⟩ | ⟨p, -, -, ⟨-, h⟩ | ⟨hf, h⟩⟩⟩
    · exact .inl ⟨_, by decide, by decide, h⟩
    · exact .inl ⟨_, by decide, by decide, h⟩
    · exact .inl ⟨_, by decide, by decide, h⟩
    · exact .inl ⟨_, by decide, by decide, h⟩
    · exact .inr (.inl ⟨by decide, _, fun _ => hf, h⟩)
  | blkDec =>
    rcases execBlkDec_cases s with ⟨-, h⟩ | ⟨-, hl, -, ⟨-, h⟩ | ⟨-, -, h⟩ | ⟨inv, -, -, ⟨-, h⟩ | ⟨-, -, h⟩ | ⟨hn, -, h⟩⟩⟩
    · exact .inl ⟨_, by decide, by decide, h⟩
    · exact .inl ⟨_, by decide, by decide, h⟩
    · exact .inl ⟨_, by decide, by decide, h⟩
    · exact .inl ⟨_, by decide, by decide, h⟩
    · exact .inl ⟨_, by decide, by decide, h⟩
    · have hlen := lastOf_length (n := s.len.toNat) (l := recoveredIndices inv s.keyb s.width.toNat s.opa.toNat)
        (by rw [recoveredIndices_length]; exact hn)
      refine .inr (.inr (.inr ⟨by decide,
        (lastOf s.len.toNat (recoveredIndices inv s.keyb s.width.toNat s.opa.toNat)).map i2l, ?_, h.trans ?_⟩))
      · rw [List.length_map, hlen]; exact hl
      · rw [← olen (by rw [List.length_map, hlen])]

end Sys2Proof.Machine
end

