-- ==== Sys2Proof/Laws/PerInstr.lean ====
section
/-! SUPPORT. Per command: its encoded word decodes to it, and no command has a field that could be ill formed. -/

namespace Sys2Proof.Laws

/-- The command's word decodes to the command, which is well formed (30_encoding.md R71, R72). -/
def RoundTrip.Statement (i : Instr) : Prop := decode (encode i) = some i ∧ i.wf = true

theorem RoundTrip.gcd : RoundTrip.Statement .gcd := by unfold RoundTrip.Statement; decide
theorem RoundTrip.egcd : RoundTrip.Statement .egcd := by unfold RoundTrip.Statement; decide
theorem RoundTrip.minvBf : RoundTrip.Statement .minvBf := by unfold RoundTrip.Statement; decide
theorem RoundTrip.minvEe : RoundTrip.Statement .minvEe := by unfold RoundTrip.Statement; decide
theorem RoundTrip.affEnc : RoundTrip.Statement .affEnc := by unfold RoundTrip.Statement; decide
theorem RoundTrip.affDec : RoundTrip.Statement .affDec := by unfold RoundTrip.Statement; decide
theorem RoundTrip.stringify : RoundTrip.Statement .stringify := by unfold RoundTrip.Statement; decide
theorem RoundTrip.strEnc : RoundTrip.Statement .strEnc := by unfold RoundTrip.Statement; decide
theorem RoundTrip.strDec : RoundTrip.Statement .strDec := by unfold RoundTrip.Statement; decide
theorem RoundTrip.blkEnc : RoundTrip.Statement .blkEnc := by unfold RoundTrip.Statement; decide
theorem RoundTrip.blkDec : RoundTrip.Statement .blkDec := by unfold RoundTrip.Statement; decide

end Sys2Proof.Laws
end

