-- ==== Sys2Proof/Laws/Script.lean ====
section
/-! SUPPORT. Runs of the host script (30_encoding.md R78): what a block of cell writes and a block of cell reads leave. -/

namespace Sys2Proof.Machine

/-- One more step, when the first of them answers a next state. -/
theorem run_succ {M : Host.Core} {s t : M.State} (k : Nat) (h : M.step s = .next t) : M.run (k + 1) s = M.run k t := by
  simp only [Host.Core.run, h]

/-- A run of one step is that step. -/
theorem run_one (M : Host.Core) (s : M.State) : M.run 1 s = M.step s := by
  simp only [Host.Core.run]
  cases M.step s <;> rfl

/-- A run of `k + n` steps goes on from where its first `k` steps end. -/
theorem run_add {M : Host.Core} {k : Nat} {t : M.State} (n : Nat) :
    ∀ {s : M.State}, M.run k s = .next t → M.run (k + n) s = M.run n t := by
  induction k with
  | zero => intro s h; cases h; rw [Nat.zero_add]
  | succ k ih =>
    intro s h
    cases hs : M.step s with
    | next u => rw [Nat.succ_add, run_succ _ hs]; exact ih (by rwa [run_succ _ hs] at h)
    | fault r => simp only [Host.Core.run, hs] at h; cases h
    | refused r => simp only [Host.Core.run, hs] at h; cases h

@[simp] theorem scriptCells_length (cs : List Byte) : ∀ i, (scriptCells i cs).length = cs.length := by
  induction cs with
  | nil => intro i; rfl
  | cons c cs ih => intro i; simp [scriptCells, ih]

/-- The writes of a text fill its cells of `TIN` (30_encoding.md R78, 20_memory.md R52). -/
theorem run_scriptCells (rest : List HostAccess) (cs : List Byte) :
    ∀ (s : State) (i : Nat), i + cs.length ≤ s.cfg.maxLen →
      core.run cs.length (s.setScript (scriptCells i cs ++ rest)) =
        .next ((s.setTin (s.tin.writeFrom i cs)).setScript rest) := by
  induction cs with
  | nil => intro s i _; rfl
  | cons c cs ih =>
    intro s i h
    rw [List.length_cons] at h ⊢
    have hstep : core.step (s.setScript (scriptCells i (c :: cs) ++ rest)) =
        .next ((s.setTin (s.tin.set i c)).setScript (scriptCells (i + 1) cs ++ rest)) := if_pos (by simp; omega)
    exact (run_succ _ hstep).trans (ih _ _ (by simp; omega))

/-- The reads of existing cells of `TOUT` return what the cells hold, and change nothing else (30_encoding.md R78,
20_memory.md R57). -/
theorem run_rdTout (rest : List HostAccess) (l : List Nat) :
    ∀ s : State, (∀ j ∈ l, j < s.cfg.maxLen) →
      core.run l.length (s.setScript (l.map HostAccess.rdTout ++ rest)) =
        .next ((s.setReads ((l.map fun j => HostValue.code (s.toutRead j)).reverse ++ s.reads)).setScript rest) := by
  induction l with
  | nil => intro s _; rfl
  | cons j l ih =>
    intro s h
    have hstep : core.step (s.setScript ((j :: l).map HostAccess.rdTout ++ rest)) =
        .next ((s.observe (.code (s.toutRead j))).setScript (l.map HostAccess.rdTout ++ rest)) :=
      if_pos (h j List.mem_cons_self)
    simp only [List.map_cons, List.reverse_cons, List.append_assoc, List.singleton_append]
    exact (run_succ _ hstep).trans (ih (s.observe _) fun k hk => h k (List.mem_cons_of_mem _ hk))

end Sys2Proof.Machine
end

