-- ==== Sys2Proof/Tests/Slice0.lean ====
section
/-! SUPPORT. The model's own tests. Expected values are those of 95_test_vectors.md (V1 to V13, P1 to P6) and of the rules'
own examples. The witnesses show that the hypotheses of each statement can be met, at boundary values. -/

namespace Sys2Proof.Tests

open Sys2Proof Sys2Proof.Machine

/-! ### Helpers -/

/-- The next state of an outcome, if it is one. -/
def after : Host.Outcome State Fault Refusal → Option State
  | .next s => some s
  | .fault _ => none
  | .refused _ => none

/-- A state with the operands of the number theory and affine commands, and 99 in `R0`. -/
def nums (opa opm keyk keyb : Int) : State := ((((State.reset.setOpa opa).setOpm opm).setKeyk keyk).setKeyb keyb).setR0 99

/-- A state with a text in `TIN`, a key and a width. -/
def texts (t : List Byte) (keyk keyb : Int) (w : Word) : State :=
  ((((State.reset.setTin (Memory.writeFrom [] 0 t)).setLen (BitVec.ofNat 32 t.length)).setKeyk keyk).setKeyb keyb).setWidth w

/-- A state with a ciphertext, a key, a width and a length. -/
def cipher (c keyk keyb : Int) (w l : Word) : State :=
  ((((State.reset.setOpa c).setKeyk keyk).setKeyb keyb).setWidth w).setLen l

/-- The state with other parameters. -/
def withCfg (s : State) (b : IntBits) (maxLen maxWidth : Nat) : State :=
  { s with cfg := { intBits := b, maxLen := maxLen, maxWidth := maxWidth } }

/-- `STATUS` and `R0` after a command. -/
def outR0 (i : Instr) (s : State) : Option (Nat × Int) := (after (exec i s)).map fun t => (t.status.toNat, t.r0)

/-- `STATUS`, `OLEN` and the written cells of `TOUT` after a command. -/
def outText (i : Instr) (s : State) : Option (Nat × Nat × List Nat) :=
  (after (exec i s)).map fun t => (t.status.toNat, t.olen.toNat, t.tout.map fun c => c.2.toNat)

/-- "Hello". -/
def hello : List Byte := [0x48, 0x65, 0x6C, 0x6C, 0x6F]

/-! ### WellFormed: one ill-formed term for each check. A command has no field, so none is ill formed (30_encoding.md R71). -/

theorem test_wf_int_bits : ({ Config.default with intBits := .finite 7 } : Config).wf = false := by decide
theorem test_wf_int_bits_least : ({ Config.default with intBits := .finite 8 } : Config).wf = true := by decide
theorem test_wf_max_len_zero : ({ Config.default with maxLen := 0 } : Config).wf = false := by decide
theorem test_wf_max_len_large : ({ Config.default with maxLen := 2 ^ 32 } : Config).wf = false := by decide
theorem test_wf_max_width_zero : ({ Config.default with maxWidth := 0 } : Config).wf = false := by decide
theorem test_wf_max_width_large : ({ Config.default with maxWidth := 2 ^ 32 } : Config).wf = false := by decide
theorem test_wf_int_write :
    (HostAccess.wrInt .opa 128).wf { Config.default with intBits := .finite 8 } = false ∧
    (HostAccess.wrInt .opa (-128)).wf { Config.default with intBits := .finite 8 } = false ∧
    (HostAccess.wrInt .opa (-127)).wf { Config.default with intBits := .finite 8 } = true := by decide
theorem test_wf_cells :
    (HostAccess.wrTin 64 0).wf Config.default = false ∧ (HostAccess.wrTout 64 0).wf Config.default = false ∧
    (HostAccess.rdTin 64).wf Config.default = false ∧ (HostAccess.rdTout 64).wf Config.default = false ∧
    (HostAccess.wrTin 63 0).wf Config.default = true := by decide

/-! ### Decoding: every row's word, bit by bit (30_encoding.md R72), and reserved words (95_test_vectors.md V11) -/

theorem test_decode_gcd : decode 0b00000000000000000000000000000001#32 = some .gcd := by decide
theorem test_decode_egcd : decode 0b00000000000000000000000000000010#32 = some .egcd := by decide
theorem test_decode_minvBf : decode 0b00000000000000000000000000000011#32 = some .minvBf := by decide
theorem test_decode_minvEe : decode 0b00000000000000000000000000000100#32 = some .minvEe := by decide
theorem test_decode_affEnc : decode 0b00000000000000000000000000010000#32 = some .affEnc := by decide
theorem test_decode_affDec : decode 0b00000000000000000000000000010001#32 = some .affDec := by decide
theorem test_decode_stringify : decode 0b00000000000000000000000000100000#32 = some .stringify := by decide
theorem test_decode_strEnc : decode 0b00000000000000000000000000110000#32 = some .strEnc := by decide
theorem test_decode_strDec : decode 0b00000000000000000000000000110001#32 = some .strDec := by decide
theorem test_decode_blkEnc : decode 0b00000000000000000000000001000000#32 = some .blkEnc := by decide
theorem test_decode_blkDec : decode 0b00000000000000000000000001000001#32 = some .blkDec := by decide
theorem test_decode_reserved : [0x00#32, 0x05#32, 0x12#32, 0x21#32, 0x32#32, 0x42#32, 0xFF#32, 0x101#32,
    0x80000001#32, 0xFFFFFFFF#32].all (fun w => (decode w).isNone) = true := by decide
theorem test_decodeTableWord : decodeTableWord 32 0x41 = some .blkDec ∧ decodeTableWord 32 0x141 = none ∧
    decodeTableWord 40 0x100000001 = none := by decide
theorem test_fetch_runs_the_word :
    (after (step (State.reset.withFetchWord 32 0x02))).map (fun t => (t.cmd.toNat, t.status.toNat, t.r2)) =
      some (2, 0, 1) := by decide

/-! ### The commands (95_test_vectors.md) -/

theorem test_gcd_signs : outR0 .gcd (nums (-48) (-18) 0 0) = some (0, 6) := by decide
theorem test_gcd_zero : outR0 .gcd (nums 0 (-7) 0 0) = some (0, 7) := by decide
theorem test_egcd_pair : (after (exec .egcd (nums 240 46 0 0))).map (fun t => (t.r0, t.r1, t.r2)) = some (2, -9, 47) := by
  decide
theorem test_egcd_signs : (after (exec .egcd (nums (-3) (-11) 0 0))).map (fun t => (t.r0, t.r1, t.r2)) = some (1, -4, 1) := by
  decide
theorem test_minvBf_negative : outR0 .minvBf (nums (-3) 11 0 0) = some (0, 7) := by decide
theorem test_minvBf_modulus_one : outR0 .minvBf (nums 3 1 0 0) = some (4, 99) := by decide
theorem test_minvEe_block_key : outR0 .minvEe (nums 74695 525252 0 0) = some (0, 464299) := by decide
theorem test_minvEe_modulus_one : outR0 .minvEe (nums 3 1 0 0) = some (0, 0) := by decide
theorem test_affEnc_negative_key : outR0 .affEnc (nums 5 10 (-3) (-7)) = some (0, 8) := by decide
theorem test_affEnc_modulus : outR0 .affEnc (nums 7 (-52) 17 36) = some (3, 99) := by decide
theorem test_affDec_negative_difference : outR0 .affDec (nums (-1) 52 17 36) = some (0, 7) := by decide
theorem test_affDec_modulus_before_key : outR0 .affDec (nums 7 0 2 3) = some (3, 99) := by decide
theorem test_stringify_digits : outText .stringify (nums 2704 0 0 0) = some (0, 3, [0x41, 0x41, 0x42]) := by decide
theorem test_stringify_too_long : outText .stringify (withCfg (nums 2704 0 0 0) .unbounded 2 8) = some (7, 0, []) := by decide
/-- "IAm", key (17, 36), gives "QkG". -/
theorem test_strEnc_case_changes : outText .strEnc (texts [0x49, 0x41, 0x6D] 17 36 0) = some (0, 3, [0x51, 0x6B, 0x47]) := by
  decide
/-- Codes next to the letter ranges. -/
theorem test_strEnc_invalid : outText .strEnc (texts [0x61, 0x5B, 0x60] 1 0 0) = some (1, 0, []) := by decide
theorem test_strDec_back : outText .strDec (texts [0x51, 0x6B, 0x47] 17 36 0) = some (0, 3, [0x49, 0x41, 0x6D]) := by decide
theorem test_strDec_key_before_characters : outText .strDec (texts [0x61, 0x20, 0x62] 2 0 0) = some (2, 0, []) := by decide
theorem test_blkEnc_partial_block : outR0 .blkEnc (texts hello 3 5 2) = some (0, 2638640721) := by decide
theorem test_blkEnc_result_range : outR0 .blkEnc (withCfg (texts hello 3 5 2) (.finite 32) 64 8) = some (7, 0) := by decide
theorem test_blkDec_hello :
    outText .blkDec (cipher 2638640721 3 5 2 5) = some (0, 5, [0x48, 0x65, 0x6C, 0x6C, 0x6F]) := by decide
/-- The bad groups lie in the part that truncation would discard, and still fail. -/
theorem test_blkDec_discarded_index : outText .blkDec (cipher 99999 3 5 2 1) = some (9, 0, []) := by decide

/-! ### The host's accesses -/

theorem test_write_to_result_ignored :
    (after (step { State.reset with script := [.wrInt .r0 99] })).map (fun t => t.r0) = some 0 := by decide
theorem test_read_status_after_reserved_word :
    (after (core.run 2 { State.reset with script := [.wrCtl .cmd 0x105, .rdCtl .status] })).map (fun t => t.reads) =
      some [.word 5] := by decide

/-! ### Witnesses: the hypotheses of each statement are met -/

theorem witness_EveryWordIsACommandOrReserved :
    (0x00000041#32, Instr.blkDec).1 = 0x41#32 ∧ 0x42#32 ∉ [0x00000001#32, 0x00000002#32, 0x00000003#32, 0x00000004#32,
      0x00000010#32, 0x00000011#32, 0x00000020#32, 0x00000030#32, 0x00000031#32, 0x00000040#32, 0x00000041#32] := by decide

theorem witness_ReservedWordSetsIllegalCommand :
    ∀ w ∈ [0x100#32, 0x00#32, 0x05#32, 0x0F#32, 0x12#32, 0x1F#32, 0x21#32, 0x2F#32, 0x32#32, 0x3F#32, 0x42#32, 0xFF#32],
      w.toNat / 256 ≠ 0 ∨ w.toNat = 0x00 ∨ (0x05 ≤ w.toNat ∧ w.toNat ≤ 0x0F) ∨ (0x12 ≤ w.toNat ∧ w.toNat ≤ 0x1F) ∨
        (0x21 ≤ w.toNat ∧ w.toNat ≤ 0x2F) ∨ (0x32 ≤ w.toNat ∧ w.toNat ≤ 0x3F) ∨ (0x42 ≤ w.toNat ∧ w.toNat ≤ 0xFF) := by
  intro w hw
  simp only [List.mem_cons, List.not_mem_nil, or_false] at hw
  rcases hw with rfl | rfl | rfl | rfl | rfl | rfl | rfl | rfl | rfl | rfl | rfl | rfl <;> decide

theorem witness_StepRunsTheDecodedCommand : decode 0x00000041#32 = some .blkDec := by decide

/-- The largest and the smallest representable value of an 8-bit register, and the two beside them. -/
theorem witness_HostIntegerWriteStoresOrIsRefused :
    (∀ v ∈ [(127 : Int), -127], ∀ n, (withCfg State.reset (.finite 8) 64 8).cfg.intBits = .finite n →
      -(2 ^ (n - 1) - 1) ≤ v ∧ v ≤ 2 ^ (n - 1) - 1) ∧
    (withCfg State.reset (.finite 8) 64 8).cfg.intBits = .finite 8 ∧
    ((-128 : Int) < -(2 ^ (8 - 1) - 1) ∧ (2 : Int) ^ (8 - 1) - 1 < 128) := by
  refine ⟨fun v hv n hn => ?_, rfl, by decide⟩
  cases hn
  revert v
  decide

theorem witness_HostControlWritesStoreOrAreIgnored : 63 < State.reset.cfg.maxLen := by decide
theorem witness_HostReadReturnsTheStoredValue : 63 < State.reset.cfg.maxLen := by decide
theorem witness_TinReadsBackWhatTheHostWrote : 63 < State.reset.cfg.maxLen ∧ State.reset.tin.get? 0 = none := by decide
theorem witness_MissingCellFaults : State.reset.cfg.maxLen ≤ 64 := by decide

theorem witness_HostWritesToDifferentLocationsCommute :
    ∀ a ∈ [HostAccess.wrTin 0 0x41, .wrInt .opa 5, .wrCtl .len 3], ∀ b ∈ [HostAccess.wrTin 63 0x42, .wrTout 0 0x43, .wrCtl .width 2],
      State.reset.tin.wf ∧ a.wf State.reset.cfg = true ∧ b.wf State.reset.cfg = true ∧
      writeTarget a ≠ none ∧ writeTarget b ≠ none ∧ writeTarget a ≠ writeTarget b ∧
      writeTarget a ≠ some (1, 0) ∧ writeTarget b ≠ some (1, 0) := by decide

theorem witness_DefinedHostStreamNeverStops :
    ScriptWf { State.reset with script := [.wrInt .opa (-5), .wrTin 63 0x41, .wrCtl .cmd 0xFFFFFFFF, .rdTout 0] } := by
  unfold ScriptWf; decide

theorem witness_CaesarScriptEncryptsItsText :
    hello.length ≤ State.reset.cfg.maxLen ∧ State.reset.cfg.maxLen < 2 ^ 32 ∧ State.reset.fits 17 = true ∧
      State.reset.fits (-36) = true ∧ ∀ j (h : j < hello.length), l2i hello[j] = some ([7, 30, 37, 37, 40].getD j 0) := by
  decide

/-- A state with a representable value in every register and a written cell in each text space. -/
def sample : State :=
  { withCfg (nums 127 (-127) 17 (-36)) (.finite 8) 2 1 with
    tin := [(0, 0x41), (1, 0x20)], tout := [(1, 0x7A)], olen := 2, status := 9, script := [.wrCtl .cmd 0x02] }

theorem witness_EveryStepKeepsTheInvariant : EngineInv sample ∧ ∃ t, step sample = .next t :=
  ⟨⟨by decide, by intro r; cases r <;> decide, by decide, by decide, by decide, by decide, by decide, by decide⟩, _, rfl⟩

theorem witness_FailureChangesOnlyCmdAndStatus :
    ∃ t, step { sample with script := [.wrCtl .cmd 0x10] } = .next t ∧ t.status ≠ 0 := ⟨_, rfl, by decide⟩

/-- AFF_DEC with a key that is not invertible, and a later state with other results and another output text. -/
theorem witness_FailedCommandFailsAgain :
    ∃ t, exec .affDec (nums 7 4 2 3) = .next t ∧ t.status ≠ 0 ∧
      (((nums 7 4 2 3).setR0 1).writeTout [0x41]).cfg = (nums 7 4 2 3).cfg ∧
      SameInputs .affDec (nums 7 4 2 3) (((nums 7 4 2 3).setR0 1).writeTout [0x41]) :=
  ⟨_, rfl, by decide, rfl, rfl, rfl, rfl, rfl⟩

theorem witness_OutcomeDependsOnlyOnTheInputs :
    (nums 3 11 0 0).cfg = ((nums 3 11 5 7).setR0 1).cfg ∧ SameInputs .minvEe (nums 3 11 0 0) ((nums 3 11 5 7).setR0 1) ∧
      SameInputs .strEnc (texts hello 3 5 1) ((texts hello 3 5 2).setOpa 8) ∧
      (after (exec .minvEe (nums 3 11 0 0))).map (fun t => t.status) = some 0 :=
  ⟨rfl, ⟨rfl, rfl⟩, ⟨⟨rfl, fun _ _ => rfl⟩, rfl, rfl⟩, by decide⟩

theorem witness_RepeatedCommandChangesNothingMore : sample.tout.wf ∧ ∃ t, exec .stringify sample = .next t :=
  ⟨by decide, _, rfl⟩

theorem witness_CommandsChangeOnlyTheirOutputs : sample.cfg.wf = true ∧ ∃ t, exec .stringify sample = .next t :=
  ⟨by decide, _, rfl⟩

theorem witness_GcdCommandReturnsTheGcd : sample.fits sample.opa = true ∧ sample.fits sample.opm = true := by decide
theorem witness_EgcdCommandReturnsABezoutPair :
    sample.cfg.wf = true ∧ sample.fits sample.opa = true ∧ sample.fits sample.opm = true := by decide

/-- The steps (2, 3) of (3, 11) and (0, 5) of (5, 0) (95_test_vectors.md V2, V5). -/
theorem witness_EgcdFollowsTheRecursion :
    (0 : Int) ≤ 11 ∧ (0 : Int) < 3 ∧ exec .egcd { State.reset with opa := 11 % 3, opm := 3 } =
      .next { State.reset with opa := 11 % 3, opm := 3, r0 := 1, r1 := -1, r2 := 1, status := 0 } ∧
    (0 : Int) ≤ 0 ∧ exec .egcd { State.reset with opa := 0 % 5, opm := 5 } =
      .next { State.reset with opa := 0 % 5, opm := 5, r0 := 5, r1 := 0, r2 := 1, status := 0 } :=
  ⟨by decide, by decide, rfl, by decide, rfl⟩

theorem witness_EgcdMovesTheSignsOntoThePair :
    exec .egcd { State.reset with opa := |(-3)|, opm := |11| } =
      .next { State.reset with opa := |(-3)|, opm := |11|, r0 := 1, r1 := 4, r2 := -1, status := 0 } := rfl

theorem witness_EgcdCornerPairs : (-5 : Int) ≠ 0 ∧ (0 : Int) < 3 ∧ (3 : Int) ∣ -6 ∧ (3 : Int) ∣ 0 := by decide

/-- Modulus 0; modulus 2 with the inverse 1; modulus 1, where no candidate passes. -/
theorem witness_MinvBfReturnsTheLeastCandidate :
    (nums 5 0 0 0).opm ≤ 0 ∧ ((7 % 2) * (1 % 2)) % 2 = (1 : Int) ∧
      (∀ j : Int, 0 ≤ j → j < 1 → ((7 % 2) * (j % 2)) % 2 ≠ (1 : Int)) ∧
      ∀ j : Int, 0 ≤ j → j < (nums 3 1 0 0).opm → (((nums 3 1 0 0).opa % 1) * (j % 1)) % 1 ≠ 1 := by
  refine ⟨by decide, by decide, fun j h0 h1 => ?_, fun j _ _ => ?_⟩
  · obtain rfl : j = 0 := by omega
    decide
  · simp

/-- Modulus 0; modulus 4 with gcd 2; modulus 1 with gcd 1. -/
theorem witness_MinvEeReducesTheCoefficient :
    exec .egcd (nums 5 0 0 0) = .next { nums 5 0 0 0 with r0 := 5, r1 := 1, r2 := 0, status := 0 } ∧
    exec .egcd (nums 2 4 0 0) = .next { nums 2 4 0 0 with r0 := 2, r1 := 1, r2 := 0, status := 0 } ∧
    exec .egcd (nums 3 1 0 0) = .next { nums 3 1 0 0 with r0 := 1, r1 := 0, r2 := 1, status := 0 } := ⟨rfl, rfl, rfl⟩

theorem witness_InverseCommandsAgree :
    2 ≤ (nums 1 2 0 0).opm ∧ Int.gcd (nums 1 2 0 0).opa (nums 1 2 0 0).opm = 1 ∧
      Int.gcd (nums 0 2 0 0).opa (nums 0 2 0 0).opm ≠ 1 ∧ (nums 1 0 0 0).opm ≤ 0 ∧ (nums 1 1 0 0).opm = 1 := by decide

theorem witness_NumberTheoryProperties : (2 : Int) ≤ 2 ∧ Int.gcd 7 2 = 1 ∧ (0 : Int) ≤ 0 := by decide

theorem witness_AffEncComputesTheTransform :
    (nums 7 0 17 36).opm ≤ 0 ∧ 0 < (nums 4 1 3 2).opm ∧ (nums 4 1 3 2).fits (nums 4 1 3 2).opm = true := by decide

/-- Modulus 0; modulus 4 with the key 2; modulus 1, where the inverse is 0. -/
theorem witness_AffDecComputesTheInverseTransform :
    (nums 7 0 2 3).opm ≤ 0 ∧ 0 < (nums 7 4 2 3).opm ∧ Int.gcd (nums 7 4 2 3).keyk (nums 7 4 2 3).opm ≠ 1 ∧
      0 < (nums 4 1 3 2).opm ∧ Int.gcd (nums 4 1 3 2).keyk (nums 4 1 3 2).opm = 1 ∧
      exec .minvEe { nums 4 1 3 2 with opa := (nums 4 1 3 2).keyk } =
        .next { nums 4 1 3 2 with opa := (nums 4 1 3 2).keyk, r0 := 0, status := 0 } :=
  ⟨by decide, by decide, by decide, by decide, by decide, rfl⟩

theorem witness_AffineRoundTrip : 0 < (nums 4 1 3 2).opm ∧ Int.gcd (nums 4 1 3 2).keyk (nums 4 1 3 2).opm = 1 := by decide
theorem witness_NonInvertibleKeyCollides :
    0 < (nums 0 2 2 0).opm ∧ Int.gcd (nums 0 2 2 0).keyk (nums 0 2 2 0).opm ≠ 1 := by decide

/-- `MAX_LEN = 1`: −1, 52, 51 and 0 (42_alphabet_stream.md R124). -/
theorem witness_StringifyWritesTheBase52Letters :
    (nums (-1) 0 0 0).opa < 0 ∧ 52 ^ (withCfg (nums 52 0 0 0) .unbounded 1 8).cfg.maxLen ≤ (nums 52 0 0 0).opa ∧
      0 ≤ (nums 51 0 0 0).opa ∧ (nums 51 0 0 0).opa < 52 ^ (withCfg (nums 51 0 0 0) .unbounded 1 8).cfg.maxLen := by decide

theorem witness_StrEncTransformsEachLetter :
    State.reset.cfg.maxLen < (State.reset.setLen 65).len.toNat ∧
      (texts hello 2 0 0).len.toNat ≤ (withCfg (texts hello 2 0 0) .unbounded 5 1).cfg.maxLen ∧
      (∃ j < (texts [0x61, 0x20] 1 0 0).len.toNat, l2i ((texts [0x61, 0x20] 1 0 0).tinRead j) = none) ∧
      ∀ j < (texts hello 2 0 0).len.toNat, l2i ((texts hello 2 0 0).tinRead j) = some ([7, 30, 37, 37, 40].getD j 0) := by
  decide

theorem witness_StrDecTransformsEachLetterBack :
    State.reset.cfg.maxLen < (State.reset.setLen 65).len.toNat ∧
      Int.gcd State.reset.keyk 52 ≠ 1 ∧ State.reset.len.toNat ≤ State.reset.cfg.maxLen ∧
      (Int.gcd (texts [0x61, 0x20] 1 0 0).keyk 52 = 1 ∧
        ∃ j < (texts [0x61, 0x20] 1 0 0).len.toNat, l2i ((texts [0x61, 0x20] 1 0 0).tinRead j) = none) ∧
      ((0 : Int) ≤ 49 ∧ (49 : Int) < 52 ∧ ((texts hello 17 36 0).keyk * 49) % 52 = 1 ∧
        ∀ j < (texts hello 17 36 0).len.toNat, l2i ((texts hello 17 36 0).tinRead j) = some ([7, 30, 37, 37, 40].getD j 0)) := by
  decide

/-- "IAm", key (17, 36): the host copies "QkG" into `TIN`. -/
theorem witness_StreamRoundTrip :
    let s := texts [0x49, 0x41, 0x6D] 17 36 0
    let u := texts [0x51, 0x6B, 0x47] 17 36 0
    s.len.toNat ≤ s.cfg.maxLen ∧ (∀ j < s.len.toNat, l2i (s.tinRead j) ≠ none) ∧ Int.gcd s.keyk 52 = 1 ∧
      ∃ t, exec .strEnc s = .next t ∧ u.cfg = t.cfg ∧ u.keyk = t.keyk ∧ u.keyb = t.keyb ∧ u.len = t.olen ∧
        ∀ j < t.olen.toNat, u.tinRead j = t.toutRead j :=
  ⟨by decide, by decide, by decide, _, rfl, by decide, by decide, by decide, by decide, by decide⟩

theorem witness_BlockCommandsCheckTheWidthFirst :
    (texts hello 3 5 9).cfg.maxWidth < (texts hello 3 5 9).width.toNat ∧ (texts hello 3 5 0).width = 0 ∧
      (texts hello 3 5 0).len.toNat ≤ (texts hello 3 5 0).cfg.maxLen ∧ 0 ≤ (texts hello 3 5 0).opa := by decide

/-- Length and width over their limits; width 0; a text with a space; "Hello" at both sides of the register's limit
(95_test_vectors.md V10). -/
theorem witness_BlkEncReturnsTheCiphertext :
    State.reset.cfg.maxLen < (State.reset.setLen 65).len.toNat ∧ State.reset.cfg.maxWidth < (State.reset.setWidth 9).width.toNat ∧
      State.reset.width = 0 ∧ (texts hello 3 5 2).width ≠ 0 ∧
      (texts hello 3 5 2).width.toNat ≤ (withCfg (texts hello 3 5 2) (.finite 33) 5 2).cfg.maxWidth ∧
      (∃ j < (texts [0x61, 0x20] 1 0 1).len.toNat, l2i ((texts [0x61, 0x20] 1 0 1).tinRead j) = none) ∧
      (∀ j < (texts hello 3 5 2).len.toNat, l2i ((texts hello 3 5 2).tinRead j) = some ([7, 30, 37, 37, 40].getD j 0)) ∧
      2638640721 = ciphertextForm (fun j => [7, 30, 37, 37, 40].getD j 0) 3 5 5 2 ∧
      (withCfg (texts hello 3 5 2) (.finite 33) 5 2).fits 2638640721 = true ∧
      (withCfg (texts hello 3 5 2) (.finite 32) 5 2).fits 2638640721 = false := by decide

/-- A negative ciphertext, a length and a width over their limits; width 0; the key 2; the key 3, whose inverse is 1751; the
ciphertext of "Hello" with a length of 7 and of 6; the recovered indices 0, 7, 30, 37, 37, 40; and 5251, whose groups are
52 and 51 (95_test_vectors.md V10). -/
theorem witness_BlkDecReturnsTheLastLetters :
    (cipher (-1) 1 0 2 0).opa < 0 ∧ State.reset.cfg.maxLen < (State.reset.setLen 65).len.toNat ∧
      State.reset.cfg.maxWidth < (State.reset.setWidth 9).width.toNat ∧
      (0 ≤ State.reset.opa ∧ State.reset.len.toNat ≤ State.reset.cfg.maxLen ∧ State.reset.width = 0) ∧
      Int.gcd (cipher 1908272233 2 5 2 5).keyk (modulusForm 2) ≠ 1 ∧
      ((0 : Int) ≤ 1751 ∧ (1751 : Int) < modulusForm 2 ∧ ((3 : Int) * 1751) % modulusForm 2 = 1) ∧
      6 = chunkForm 2638640721 2 * 2 ∧ 6 < (cipher 2638640721 3 5 2 7).len.toNat ∧ (cipher 2638640721 3 5 2 6).len.toNat ≤ 6 ∧
      (∀ u < 6, indexForm 1751 5 2638640721 2 u ≤ 51) ∧
      (2 = chunkForm 5251 2 * 2 ∧ (cipher 5251 1 0 2 2).len.toNat ≤ 2 ∧ ∃ u < 2, 51 < indexForm 1 0 5251 2 u) := by decide

/-- "Hello" with a partial leading block; "A" in one block of 1 letter, which encrypts to 0 and is not lost, because
`LEN = WIDTH`; and "AAAB", whose leading block is lost (43_block_codec.md R151). -/
theorem witness_BlockRoundTrip :
    (let s := texts hello 3 5 2
     (0 < s.len.toNat ∧ s.len.toNat ≤ s.cfg.maxLen ∧ 0 < s.width.toNat ∧ s.width.toNat ≤ s.cfg.maxWidth) ∧
       (∀ j < s.len.toNat, l2i (s.tinRead j) ≠ none) ∧ Int.gcd s.keyk (modulusForm s.width.toNat) = 1 ∧
       ∃ t, exec .blkEnc s = .next t ∧ t.status = 0 ∧
         (100 : Int) ^ (s.width.toNat * (blockCount s.len.toNat s.width.toNat - 1)) ≤ t.r0) ∧
    (let s := texts [0x41] 1 0 1
     (0 < s.len.toNat ∧ s.len.toNat ≤ s.cfg.maxLen ∧ 0 < s.width.toNat ∧ s.width.toNat ≤ s.cfg.maxWidth) ∧
       (∀ j < s.len.toNat, l2i (s.tinRead j) ≠ none) ∧ Int.gcd s.keyk (modulusForm s.width.toNat) = 1 ∧
       ∃ t, exec .blkEnc s = .next t ∧ t.status = 0 ∧ s.len.toNat ≤ s.width.toNat ∧
         ¬ (100 : Int) ^ (s.width.toNat * (blockCount s.len.toNat s.width.toNat - 1)) ≤ t.r0) ∧
    (let s := texts [0x41, 0x41, 0x41, 0x42] 1 0 2
     (0 < s.len.toNat ∧ s.len.toNat ≤ s.cfg.maxLen ∧ 0 < s.width.toNat ∧ s.width.toNat ≤ s.cfg.maxWidth) ∧
       (∀ j < s.len.toNat, l2i (s.tinRead j) ≠ none) ∧ Int.gcd s.keyk (modulusForm s.width.toNat) = 1 ∧
       ∃ t, exec .blkEnc s = .next t ∧ t.status = 0 ∧ s.width.toNat < s.len.toNat ∧
         t.r0 < (100 : Int) ^ (s.width.toNat * (blockCount s.len.toNat s.width.toNat - 1))) :=
  ⟨⟨by decide, by decide, by decide, _, rfl, by decide, by decide⟩,
    ⟨by decide, by decide, by decide, _, rfl, by decide, by decide, by decide⟩,
    ⟨by decide, by decide, by decide, _, rfl, by decide, by decide, by decide⟩⟩

theorem witness_EmptyTextEncryptsToZero :
    (texts [] 1 0 8).len = 0 ∧ 0 < (texts [] 1 0 8).width.toNat ∧ (texts [] 1 0 8).width.toNat ≤ (texts [] 1 0 8).cfg.maxWidth ∧
      (texts [] 1 0 8).opa = 0 ∧ Int.gcd (texts [] 1 0 8).keyk (modulusForm 8) = 1 ∧
      (texts [] 1 0 8).keyb % modulusForm 8 = 0 := by decide

theorem witness_SmallerLengthReturnsASuffix :
    (3#32).toNat ≤ (cipher 2638640721 3 5 2 5).len.toNat ∧
      ∃ t, exec .blkDec (cipher 2638640721 3 5 2 5) = .next t ∧ t.status = 0 := ⟨by decide, _, rfl, by decide⟩

/-- The first and the last code of each range, and the codes beside them. -/
theorem witness_AlphabetHasTheLetterCodes :
    (∀ c ∈ [0x41#8, 0x5A#8], 0x41 ≤ c.toNat ∧ c.toNat ≤ 0x5A) ∧ (∀ c ∈ [0x61#8, 0x7A#8], 0x61 ≤ c.toNat ∧ c.toNat ≤ 0x7A) ∧
      (∀ c ∈ [0x00#8, 0x40#8, 0x5B#8, 0x60#8, 0x7B#8, 0xFF#8],
        c.toNat < 0x41 ∨ (0x5A < c.toNat ∧ c.toNat < 0x61) ∨ 0x7A < c.toNat) ∧
      l2i 0x7A#8 = some 51 ∧ (25 : Nat) ≤ 25 ∧ (26 : Nat) ≤ 26 := by decide

end Sys2Proof.Tests
end

section
/-! SUPPORT. What a text cell that was never written reads as, and what reset leaves (10_state.md R32). -/

namespace Sys2Proof.Proofs

open Sys2Proof.Machine

/-- In a text space without a written cell no cell holds a code (70_reset_and_hazards.md R191). -/
@[simp] theorem get?_nil (i : Nat) : Memory.get? [] i = none := rfl

/-- A cell of `TIN` that was never written reads as its free value (log 4). -/
theorem tinRead_of_get?_eq_none {s : State} {i : Nat} (h : s.tin.get? i = none) :
    s.tinRead i = Config.unwrittenTin i := by
  rw [State.tinRead, h, Option.getD_none]

/-- A cell of `TOUT` that was never written reads as its free value (log 4). -/
theorem toutRead_of_get?_eq_none {s : State} {i : Nat} (h : s.tout.get? i = none) :
    s.toutRead i = Config.unwrittenTout i := by
  rw [State.toutRead, h, Option.getD_none]

/-- A text operand of length 0 is empty, whatever the cells of `TIN` hold (10_state.md R30). -/
theorem text_eq_nil_of_len_eq_zero {s : State} (h : s.len = 0) : s.text = [] := by
  simp [State.text, h]

theorem reset_readInt (r : IntReg) : State.reset.readInt r = 0 := by
  cases r <;> rfl

theorem reset_readCtl (c : CtlReg) : State.reset.readCtl c = 0 := by
  cases c <;> rfl

theorem reset_tin_get? (i : Nat) : State.reset.tin.get? i = none := get?_nil i

theorem reset_tout_get? (i : Nat) : State.reset.tout.get? i = none := get?_nil i

/-- Settles O1: each register by its own field; both texts are empty because `LEN` and `OLEN` are 0, and every cell reads
as its free value because no cell has been written. -/
theorem resetLeavesZerosAndUnwrittenCells : Obligations.ResetLeavesZerosAndUnwrittenCells := by
  have hlen : State.reset.len = 0 := reset_readCtl .len
  have hstatus : State.reset.status = Status.ok.word := rfl
  have holen : State.reset.olen.toNat = 0 := congrArg BitVec.toNat (reset_readCtl .olen)
  refine ⟨reset_readInt, reset_readCtl, hstatus, text_eq_nil_of_len_eq_zero hlen, holen, fun i => ?_⟩
  exact ⟨reset_tin_get? i, reset_tout_get? i, tinRead_of_get?_eq_none (reset_tin_get? i),
    toutRead_of_get?_eq_none (reset_tout_get? i)⟩

end Sys2Proof.Proofs
end

section
/-! SUPPORT. The decoder and the encoder are inverse to each other (30_encoding.md R72, R74), what a write to `CMD` does in
either case of the decoder, and the two statements about every command word. -/

namespace Sys2Proof.Proofs

open Sys2Proof.Machine

/-! ### The decoder -/

@[simp] theorem instrOfOpcode_opcode (i : Instr) : instrOfOpcode i.opcode = some i := by cases i <;> rfl

theorem opcode_of_instrOfOpcode_eq_some {opc : BitVec 8} {i : Instr} (h : instrOfOpcode opc = some i) :
    opc = i.opcode := by
  unfold instrOfOpcode at h
  split at h <;> cases h <;> rfl

@[simp] theorem decode_encode (i : Instr) : decode (encode i) = some i := by simp [decode]

/-- A word decodes to a command exactly when it is that command's word: its two fields are 0 and the opcode. -/
theorem decode_eq_some_iff {w : Word} {i : Instr} : decode w = some i ↔ w = encode i := by
  refine ⟨fun h => ?_, fun h => h ▸ decode_encode i⟩
  obtain ⟨hrsvd, hopc⟩ := Option.ite_none_right_eq_some.mp h
  calc w = rsvdField w ++ opcField w := (word_of_fields w).symm
    _ = encode i := by rw [hrsvd, opcode_of_instrOfOpcode_eq_some hopc, encode]

theorem decode_eq_none_iff {w : Word} : decode w = none ↔ ∀ i, w ≠ encode i := by
  simp [Option.eq_none_iff_forall_ne_some, decode_eq_some_iff]

/-! ### A write to `CMD` -/

/-- The write at the head of the stream is issued with the rest of the stream still to come (20_memory.md R56). -/
theorem step_wrCtl_cmd (s : State) (rest : List HostAccess) (w : Word) :
    step { s with script := .wrCtl .cmd w :: rest } = issue w { s with script := rest } := rfl

theorem step_of_decode_eq_some {w : Word} {i : Instr} (h : decode w = some i) (s : State) (rest : List HostAccess) :
    step { s with script := .wrCtl .cmd w :: rest } = exec i { s with script := rest, cmd := w } := by
  rw [step_wrCtl_cmd, issue, h]
  rfl

theorem step_of_decode_eq_none {w : Word} (h : decode w = none) (s : State) (rest : List HostAccess) :
    step { s with script := .wrCtl .cmd w :: rest } = .next { s with script := rest, cmd := w, status := 5 } := by
  rw [step_wrCtl_cmd, issue, h]
  rfl

/-! ### The statements -/

/-- Settles O4: the words listed are the encodings of the commands beside them, so each decodes to its command, and the
list holds every command's encoding, so a word beside it decodes to none. -/
theorem everyWordIsACommandOrReserved : Obligations.EveryWordIsACommandOrReserved := by
  intro s rest w
  refine ⟨fun e he hw => step_of_decode_eq_some (decode_eq_some_iff.mpr ?_) s rest,
    fun hw => step_of_decode_eq_none (decode_eq_none_iff.mpr ?_) s rest⟩
  · subst hw
    revert e
    decide
  · rintro i rfl
    exact hw (by cases i <;> decide)

/-- Settles O5: no command's encoding lies in one of the reserved ranges, so a word of them decodes to none. -/
theorem reservedWordSetsIllegalCommand : Obligations.ReservedWordSetsIllegalCommand := by
  intro s rest w hw
  refine step_of_decode_eq_none (decode_eq_none_iff.mpr ?_) s rest
  rintro i rfl
  revert hw
  cases i <;> decide

end Sys2Proof.Proofs
end

section
/-! SUPPORT. The number theory unit: the next state of each command, when the scan of R95 answers a candidate, how it agrees
with the extended Euclidean algorithm, and the statements about GCD, EGCD and the two inverse commands
(40_number_theory.md R90 to R98). -/

namespace Sys2Proof.Proofs

open Sys2Proof.Machine

/-! ### The next states -/

theorem exec_gcd (s : State) : exec .gcd s = .next { s with r0 := (Int.gcd s.opa s.opm : Nat), status := 0 } :=
  execGcd_eq s

theorem exec_egcd (s : State) : exec .egcd s = .next { s with
    r0 := (Int.gcd s.opa s.opm : Nat), r1 := (egcd s.opa s.opm).2.1, r2 := (egcd s.opa s.opm).2.2, status := 0 } :=
  execEgcd_eq s

/-- EGCD leaves exactly one triple in the result registers, so a triple it ends with is that one. -/
theorem exec_egcd_eq_next_iff {s : State} {g x y : Int} :
    exec .egcd s = .next { s with r0 := g, r1 := x, r2 := y, status := 0 } ↔
      (Int.gcd s.opa s.opm : Nat) = g ∧ (egcd s.opa s.opm).2.1 = x ∧ (egcd s.opa s.opm).2.2 = y := by
  simp [exec_egcd]

theorem exec_minvBf_of_eq_some {s : State} {v : Int} (h : minvBf s.opa s.opm = some v) :
    exec .minvBf s = .next { s with r0 := v, status := 0 } :=
  congrArg (finishInverse · s) h

theorem exec_minvBf_of_eq_none {s : State} (h : minvBf s.opa s.opm = none) :
    exec .minvBf s = .next { s with status := 4 } :=
  congrArg (finishInverse · s) h

theorem exec_minvEe_of_eq_some {s : State} {v : Int} (h : minvEe s.opa s.opm = some v) :
    exec .minvEe s = .next { s with r0 := v, status := 0 } :=
  congrArg (finishInverse · s) h

theorem exec_minvEe_of_eq_none {s : State} (h : minvEe s.opa s.opm = none) :
    exec .minvEe s = .next { s with status := 4 } :=
  congrArg (finishInverse · s) h

/-! ### gcd and extended gcd of signed operands -/

theorem gcd_abs_abs (a b : Int) : Int.gcd |a| |b| = Int.gcd a b := by
  rw [Int.gcd, Int.natAbs_abs, Int.natAbs_abs, Int.gcd]

theorem signOf_mul (a x : Int) : signOf a * x = if a < 0 then -x else x := by
  unfold signOf
  split <;> simp

/-- The pair of signed operands is that of their absolute values with the signs moved onto it (R93). -/
theorem egcd_eq_egcd_abs (a m : Int) :
    (egcd a m).2.1 = (if a < 0 then -(egcd |a| |m|).2.1 else (egcd |a| |m|).2.1) ∧
      (egcd a m).2.2 = (if m < 0 then -(egcd |a| |m|).2.2 else (egcd |a| |m|).2.2) := by
  have habs : egcd |a| |m| = egcdNN a.natAbs m.natAbs := by
    simp [egcd, signOf_mul, Int.natAbs_abs, (abs_nonneg a).not_gt, (abs_nonneg m).not_gt]
  rw [habs, ← signOf_mul, ← signOf_mul]
  exact ⟨rfl, rfl⟩

/-! ### The scan of the candidates -/

/-- The test of R95 asks whether the candidate is an inverse, its two reductions change nothing. -/
theorem isInverse_iff {num m i : Int} : isInverse num m i = true ↔ (num * i) % m = 1 := by
  rw [isInverse, decide_eq_true_iff, ← Int.mul_emod]

/-- A candidate the scan answers is the least that passes the test. -/
theorem minvBf_eq_some_iff {num m i : Int} (hm : 0 < m) :
    minvBf num m = some i ↔
      0 ≤ i ∧ i < m ∧ (num * i) % m = 1 ∧ ∀ j : Int, 0 ≤ j → j < i → (num * j) % m ≠ 1 := by
  simp only [ne_eq, ← isInverse_iff]
  rcases minvBf_cases (num := num) hm with ⟨n, hn, hlt, hinv, hmin⟩ | ⟨hn, hall⟩
  · have hleast (j : Int) (hj : 0 ≤ j) (hjn : j < n) : ¬ isInverse num m j = true := by
      lift j to Nat using hj
      simp [hmin j (by exact_mod_cast hjn)]
    rw [show minvBf num m = some (n : Int) from hn, Option.some_inj]
    constructor
    · rintro rfl
      exact ⟨by positivity, hlt, hinv, hleast⟩
    · rintro ⟨hi, -, hinv', hmin'⟩
      rcases lt_trichotomy (n : Int) i with h | h | h
      · exact absurd hinv (hmin' n (by positivity) h)
      · exact h
      · exact absurd hinv' (hleast i hi h)
  · rw [hn]
    refine iff_of_false (by simp) fun ⟨hi, him, hinv, _⟩ => ?_
    lift i to Nat using hi
    simp [hall i him] at hinv

/-- No scan of R95 answers a candidate when none passes the test. -/
theorem minvBf_eq_none_of_forall {num m : Int} (h : ∀ j : Int, 0 ≤ j → j < m → (num * j) % m ≠ 1) :
    minvBf num m = none := by
  rcases le_or_gt m 0 with hm | hm
  · exact (minv_of_nonpos hm).1
  · refine Option.eq_none_iff_forall_ne_some.mpr fun i hi => ?_
    obtain ⟨h0, h1, hinv, -⟩ := (minvBf_eq_some_iff hm).mp hi
    exact h i h0 h1 hinv

/-! ### The two inverse algorithms -/

/-- 0 passes the test of R95 for no modulus. -/
theorem pos_of_inverse {num m v : Int} (h0 : 0 ≤ v) (h : (num * v) % m = 1) : 0 < v := by
  refine h0.lt_of_ne' ?_
  rintro rfl
  simp at h

/-- From modulus 2 on the inverse is not 0, and "congruent to 1" is "has remainder 1" (R97). -/
theorem minvEe_eq_some_iff_of_two_le {num m v : Int} (hm : 2 ≤ m) :
    minvEe num m = some v ↔ 1 ≤ v ∧ v < m ∧ (num * v) % m = 1 := by
  rw [minvEe_eq_some_iff (by omega), Int.emod_eq_of_lt (a := 1) (by omega) (by omega)]
  exact ⟨fun ⟨h0, h1, hinv⟩ => ⟨pos_of_inverse h0 hinv, h1, hinv⟩, fun ⟨h0, h1, hinv⟩ => ⟨by omega, h1, hinv⟩⟩

/-- The two algorithms agree from modulus 2 on, because the inverse is unique: no smaller candidate passes the test. -/
theorem minvBf_eq_minvEe {num m : Int} (hm : 2 ≤ m) : minvBf num m = minvEe num m := by
  ext v
  rw [minvBf_eq_some_iff (by omega), minvEe_eq_some_iff_of_two_le hm]
  constructor
  · rintro ⟨h0, h1, hinv, -⟩
    exact ⟨pos_of_inverse h0 hinv, h1, hinv⟩
  · rintro ⟨h0, h1, hinv⟩
    refine ⟨by omega, h1, hinv, fun j hj hjv hinv' => hjv.ne ?_⟩
    have hone : 1 % m = 1 := Int.emod_eq_of_lt (by omega) (by omega)
    exact inverse_unique ⟨hj, by omega⟩ ⟨by omega, h1⟩ (hinv'.trans hone.symm) (hinv.trans hone.symm)

/-- Coprime operands have an inverse. -/
theorem exists_minvEe_eq_some {num m : Int} (hm : 0 < m) (hg : Int.gcd num m = 1) : ∃ v, minvEe num m = some v :=
  ⟨_, by rw [minvEe_eq hm, if_pos hg]⟩

theorem minvEe_eq_none {num m : Int} (hm : 0 < m) (hg : Int.gcd num m ≠ 1) : minvEe num m = none := by
  rw [minvEe_eq hm, if_neg hg]

/-- Modulo 1 no remainder is 1, so no candidate passes the test of R95. -/
theorem minvBf_modulus_one (num : Int) : minvBf num 1 = none :=
  minvBf_eq_none_of_forall fun j _ _ => by simp

/-- Modulo 1 every integer is an inverse, and 0 is the one in range. -/
theorem minvEe_modulus_one (num : Int) : minvEe num 1 = some 0 :=
  (minvEe_eq_some_iff one_pos).mpr (by simp)

theorem exec_minvBf_eq_exec_minvEe {s : State} (hm : 2 ≤ s.opm) : exec .minvBf s = exec .minvEe s :=
  congrArg (finishInverse · s) (minvBf_eq_minvEe hm)

/-! ### The statements -/

/-- Settles O26: GCD's next state, and a gcd is no larger than the operands that fit. -/
theorem gcdCommandReturnsTheGcd : Obligations.GcdCommandReturnsTheGcd :=
  fun s => ⟨exec_gcd s, fits_gcd⟩

/-- Settles O29: the hypothesis fixes the pair of the absolute values, and the identity is that of the signed pair. -/
theorem egcdMovesTheSignsOntoThePair : Obligations.EgcdMovesTheSignsOntoThePair := by
  intro s a m g x y h
  obtain ⟨rfl, rfl, rfl⟩ := exec_egcd_eq_next_iff.mp h
  obtain ⟨hx, hy⟩ := egcd_eq_egcd_abs a m
  obtain ⟨-, hbezout, -⟩ := egcd_spec a m
  simp only [gcd_abs_abs, ← hx, ← hy]
  exact ⟨exec_egcd _, hbezout, trivial⟩

/-- Settles O31: its three parts are the non-positive modulus, the candidate the scan answers, and none. -/
theorem minvBfReturnsTheLeastCandidate : Obligations.MinvBfReturnsTheLeastCandidate := by
  intro s
  simp only [← Int.mul_emod]
  refine ⟨fun hm => ?_, fun i h0 h1 hinv hmin => ?_, fun hall => ?_⟩
  · exact exec_minvBf_of_eq_none (minv_of_nonpos hm).1
  · exact exec_minvBf_of_eq_some ((minvBf_eq_some_iff (by omega)).mpr ⟨h0, h1, hinv, hmin⟩)
  · exact exec_minvBf_of_eq_none (minvBf_eq_none_of_forall hall)

/-- Settles O32: EGCD's `R0` decides, and reducing its `R1` twice is reducing it once. -/
theorem minvEeReducesTheCoefficient : Obligations.MinvEeReducesTheCoefficient := by
  intro s g x y h
  obtain ⟨rfl, rfl, rfl⟩ := exec_egcd_eq_next_iff.mp h
  refine ⟨fun hm => ?_, fun hm hg => ?_, fun hm hg => ?_⟩
  · exact exec_minvEe_of_eq_none (minv_of_nonpos hm).2
  · exact exec_minvEe_of_eq_none (minvEe_eq_none hm (by exact_mod_cast hg))
  · have hinv : minvEe s.opa s.opm = some ((egcd s.opa s.opm).2.1 % s.opm) := by
      rw [minvEe_eq hm, if_pos (by exact_mod_cast hg)]
    rw [Int.add_emod_right, Int.emod_emod]
    exact ⟨exec_minvEe_of_eq_some hinv, Int.emod_nonneg _ hm.ne', Int.emod_lt_of_pos _ hm⟩

/-- Settles O33: the agreement and the uniqueness from modulus 2 on, then the moduli below it. -/
theorem inverseCommandsAgree : Obligations.InverseCommandsAgree := by
  intro s
  refine ⟨fun hm => ⟨exec_minvBf_eq_exec_minvEe hm, fun hg => ?_, fun hg => ?_⟩, fun hm => ?_, fun hm => ?_⟩
  · exact exec_minvEe_of_eq_none (minvEe_eq_none (by omega) hg)
  · obtain ⟨v, hv⟩ := exists_minvEe_eq_some (by omega) hg
    refine ⟨v, exec_minvEe_of_eq_some hv, fun u => ?_⟩
    rw [← minvEe_eq_some_iff_of_two_le hm, hv, Option.some_inj, eq_comm]
  · exact ⟨exec_minvBf_of_eq_none (minv_of_nonpos hm).1, exec_minvEe_of_eq_none (minv_of_nonpos hm).2⟩
  · exact ⟨exec_minvBf_of_eq_none (hm ▸ minvBf_modulus_one s.opa),
      exec_minvEe_of_eq_some (hm ▸ minvEe_modulus_one s.opa)⟩

/-- Settles O34: one `g`, the gcd, for GCD and EGCD; one inverse, that of MINV_EE, for the two inverse commands. -/
theorem numberTheoryProperties : Obligations.NumberTheoryProperties := by
  intro s a b
  obtain ⟨-, hbezout, -⟩ := egcd_spec a b
  refine ⟨(Int.gcd a b : Nat), (egcd a b).2.1, (egcd a b).2.2, exec_gcd _, gcd_abs_abs a b ▸ exec_gcd _, by positivity,
    ?_, ?_, exec_egcd _, hbezout, ?_, ?_⟩
  · rintro rfl
    simp
  · rintro rfl rfl
    rfl
  · intro hb hg i hi
    obtain ⟨v, hv⟩ := exists_minvEe_eq_some (by omega) hg
    obtain ⟨h0, h1, hinv⟩ := (minvEe_eq_some_iff_of_two_le hb).mp hv
    refine ⟨v, ?_, hinv, by omega, h1⟩
    have hee := exec_minvEe_of_eq_some (s := { s with opa := a, opm := b }) hv
    rcases List.mem_pair.mp hi with rfl | rfl
    · exact (exec_minvBf_eq_exec_minvEe hb).trans hee
    · exact hee
  · intro hb i hi
    rcases List.mem_pair.mp hi with rfl | rfl
    · exact exec_minvBf_of_eq_none (minv_of_nonpos hb).1
    · exact exec_minvEe_of_eq_none (minv_of_nonpos hb).2

end Sys2Proof.Proofs
end

section
/-! SUPPORT. The affine transform unit: the next state of AFF_ENC and AFF_DEC in each of their cases, and the statements
about what the two commands compute (41_affine.md R110, R111). -/

namespace Sys2Proof.Proofs

open Sys2Proof.Machine

/-! ### The next states -/

theorem exec_affEnc_of_nonpos {s : State} (hm : s.opm ≤ 0) : exec .affEnc s = .next { s with status := 3 } :=
  if_pos hm

theorem exec_affEnc_of_pos {s : State} (hm : 0 < s.opm) :
    exec .affEnc s = .next { s with r0 := enc s.opa s.keyk s.keyb s.opm, status := 0 } :=
  if_neg hm.not_ge

theorem exec_affDec_of_nonpos {s : State} (hm : s.opm ≤ 0) : exec .affDec s = .next { s with status := 3 } :=
  if_pos hm

theorem exec_affDec_of_eq_none {s : State} (hm : 0 < s.opm) (h : minvEe s.keyk s.opm = none) :
    exec .affDec s = .next { s with status := 2 } := by
  rcases execAffDec_cases s with ⟨hm', -⟩ | ⟨-, -, he⟩ | ⟨inv, -, hinv, -⟩
  · exact absurd hm' hm.not_ge
  · exact he
  · simp [h] at hinv

theorem exec_affDec_of_eq_some {s : State} {inv : Int} (h : minvEe s.keyk s.opm = some inv) :
    exec .affDec s = .next { s with r0 := decWith inv s.opa s.keyb s.opm, status := 0 } := by
  obtain ⟨hm, -⟩ := minvEe_some h
  rcases execAffDec_cases s with ⟨hm', -⟩ | ⟨-, hnone, -⟩ | ⟨v, -, hv, he⟩
  · exact absurd hm' hm.not_ge
  · simp [h] at hnone
  · obtain rfl : v = inv := Option.some_inj.mp (hv.symm.trans h)
    exact he

/-! ### What the statements compare with -/

/-- MINV_EE ends with status 0 and a value exactly when that value is the inverse: without one its status is 4. -/
theorem exec_minvEe_eq_next_iff {s : State} {v : Int} :
    exec .minvEe s = .next { s with r0 := v, status := 0 } ↔ minvEe s.opa s.opm = some v := by
  cases h : minvEe s.opa s.opm with
  | none => simp [exec_minvEe_of_eq_none h]
  | some w => simp [exec_minvEe_of_eq_some h]

/-- A register holds every integer of no greater absolute value than one it holds (10_state.md R21). -/
theorem fits_of_natAbs_le {s : State} {x m : Int} (hm : s.fits m = true) (hx : x.natAbs ≤ m.natAbs) :
    s.fits x = true := by
  unfold State.fits IntBits.fits at *
  cases hb : s.cfg.intBits with
  | unbounded => rfl
  | finite n =>
    simp only [hb, decide_eq_true_eq] at hm ⊢
    exact hx.trans hm

/-! ### The statements -/

/-- Settles O36: the key decides between MINV_EE's two answers, and the inverse AFF_DEC uses is the one MINV_EE ends
with. -/
theorem affDecComputesTheInverseTransform : Obligations.AffDecComputesTheInverseTransform := by
  refine fun s => ⟨exec_affDec_of_nonpos, fun hm hg => ?_, fun hm _ inv h => ?_⟩
  · exact exec_affDec_of_eq_none hm (minvEe_eq_none hm hg)
  · exact ⟨exec_affDec_of_eq_some (exec_minvEe_eq_next_iff.mp h), decWith_range hm inv s.opa s.keyb⟩

/-- Settles O35: a residue lies in `0 .. m−1`, so it fits wherever the modulus does. -/
theorem affEncComputesTheTransform : Obligations.AffEncComputesTheTransform := by
  refine fun s => ⟨exec_affEnc_of_nonpos, fun hm => ?_⟩
  obtain ⟨h0, hlt⟩ := enc_range hm s.opa s.keyk s.keyb
  have hle : (enc s.opa s.keyk s.keyb s.opm).natAbs ≤ s.opm.natAbs := by omega
  exact ⟨exec_affEnc_of_pos hm, h0, hlt, fun hfit => fits_of_natAbs_le hfit hle⟩

end Sys2Proof.Proofs
end

section
/-! SUPPORT. STRINGIFY and the stream commands: the text a command leaves in `TOUT`, the ending of both stream commands, their
next states, and the statements about them (42_alphabet_stream.md R124 to R127). -/

namespace Sys2Proof.Proofs

open Sys2Proof.Machine

/-! ### The output text -/

/-- A text given position by position, written to `TOUT` and read back (20_memory.md R50, R53). -/
theorem toutRead_writeTout_range_map (s : State) (n : Nat) (code : Nat → Byte) (j : Nat) :
    (s.writeTout ((List.range n).map code)).toutRead j = if j < n then code j else s.toutRead j := by
  simp [toutRead_writeTout]

/-- The output of STRINGIFY position by position (42_alphabet_stream.md R124). -/
theorem stringify_eq_range_map (n : Nat) :
    stringify n = (List.range (stringify n).length).map fun j => i2l (n / 52 ^ j % 52) :=
  List.ext_getElem (by simp) fun j hj _ => by simp [stringify_getElem n j hj]

/-- The output of STRINGIFY has at most `d` characters exactly when `52^d` exceeds the operand (R124). -/
theorem stringify_toNat_length_le_iff {n : Int} (h0 : 0 ≤ n) (d : Nat) :
    (stringify n.toNat).length ≤ d ↔ n < 52 ^ d := by
  lift n to Nat using h0
  rw [Int.toNat_natCast, stringify_length_le_iff]
  norm_cast

/-! ### The ending of both stream commands -/

/-- A text whose characters are letters, by the indices of its cells. -/
theorem letterIndices_text_of_letters {s : State} {p : Nat → Nat}
    (hp : ∀ j < s.len.toNat, l2i (s.tinRead j) = some (p j)) :
    letterIndices s.text = some ((List.range s.len.toNat).map p) :=
  letterIndices_text.mpr ⟨by simp, fun j hj => by simpa using hp j (by simpa using hj)⟩

/-- One character that is not a letter ends the command, and nothing is written. -/
theorem finishStream_of_invalidChar {s : State} (f : Int → Int) (h : ∃ j < s.len.toNat, l2i (s.tinRead j) = none) :
    finishStream f (letterIndices s.text) s = .next { s with status := 1 } := by
  rw [letterIndices_text_none.mpr h]
  rfl

/-- On a text of letters the command leaves in each of its positions the letter transformed by `f`, and every other cell of
`TOUT` as it was. -/
theorem finishStream_of_letters {s : State} (f : Int → Int) {p : Nat → Nat}
    (hp : ∀ j < s.len.toNat, l2i (s.tinRead j) = some (p j)) :
    ∃ m : Memory, finishStream f (letterIndices s.text) s = .next { s with tout := m, olen := s.len, status := 0 } ∧
      ∀ j, { s with tout := m }.toutRead j = if j < s.len.toNat then i2l (f (p j)).toNat else s.toutRead j := by
  rw [letterIndices_text_of_letters hp, finishStream, List.map_map]
  exact ⟨_, rfl, toutRead_writeTout_range_map s _ _⟩

/-! ### The next states -/

theorem exec_stringify_of_neg {s : State} (h : s.opa < 0) : exec .stringify s = .next { s with status := 6 } :=
  if_pos h

theorem exec_stringify_of_maxLen_lt {s : State} (h0 : 0 ≤ s.opa) (h : s.cfg.maxLen < (stringify s.opa.toNat).length) :
    exec .stringify s = .next { s with status := 7 } :=
  (if_neg h0.not_gt).trans (if_pos h)

theorem exec_stringify_of_le_maxLen {s : State} (h0 : 0 ≤ s.opa) (h : (stringify s.opa.toNat).length ≤ s.cfg.maxLen) :
    exec .stringify s = .next { s with
      tout := (s.writeTout (stringify s.opa.toNat)).tout,
      olen := BitVec.ofNat 32 (stringify s.opa.toNat).length, status := 0 } :=
  (if_neg h0.not_gt).trans (if_neg h.not_gt)

theorem exec_strEnc_of_maxLen_lt {s : State} (h : s.cfg.maxLen < s.len.toNat) :
    exec .strEnc s = .next { s with status := 6 } :=
  if_pos h

theorem exec_strEnc_of_le_maxLen {s : State} (h : s.len.toNat ≤ s.cfg.maxLen) :
    exec .strEnc s = finishStream (enc · s.keyk s.keyb 52) (letterIndices s.text) s :=
  if_neg h.not_gt

theorem exec_strDec_of_maxLen_lt {s : State} (h : s.cfg.maxLen < s.len.toNat) :
    exec .strDec s = .next { s with status := 6 } :=
  if_pos h

/-- A key without an inverse ends STR_DEC before any character is examined. -/
theorem exec_strDec_of_eq_none {s : State} (h : s.len.toNat ≤ s.cfg.maxLen) (hk : minvEe s.keyk 52 = none) :
    exec .strDec s = .next { s with status := 2 } := by
  rcases execStrDec_cases s with ⟨hl, -⟩ | ⟨-, -, he⟩ | ⟨inv, -, hinv, -⟩ | ⟨inv, -, -, hinv, -⟩
  · exact absurd h hl.not_ge
  · exact he
  · simp [hk] at hinv
  · simp [hk] at hinv

theorem exec_strDec_of_eq_some {s : State} {inv : Int} (h : s.len.toNat ≤ s.cfg.maxLen)
    (hk : minvEe s.keyk 52 = some inv) :
    exec .strDec s = finishStream (decWith inv · s.keyb 52) (letterIndices s.text) s := by
  rw [exec, execStrDec, if_neg h.not_gt, alphabetSize, Nat.cast_ofNat, hk]

/-- STR_ENC of a text of letters (42_alphabet_stream.md R125, the second loop). -/
theorem exec_strEnc_of_letters {s : State} {p : Nat → Nat} (h : s.len.toNat ≤ s.cfg.maxLen)
    (hp : ∀ j < s.len.toNat, l2i (s.tinRead j) = some (p j)) :
    ∃ m : Memory, exec .strEnc s = .next { s with tout := m, olen := s.len, status := 0 } ∧
      ∀ j, { s with tout := m }.toutRead j =
        if j < s.len.toNat then i2l (enc (p j) s.keyk s.keyb 52).toNat else s.toutRead j := by
  rw [exec_strEnc_of_le_maxLen h]
  exact finishStream_of_letters _ hp

/-- STR_DEC of a text of letters with an invertible key (42_alphabet_stream.md R126). -/
theorem exec_strDec_of_letters {s : State} {inv : Int} {q : Nat → Nat} (h : s.len.toNat ≤ s.cfg.maxLen)
    (hk : minvEe s.keyk 52 = some inv) (hq : ∀ j < s.len.toNat, l2i (s.tinRead j) = some (q j)) :
    ∃ m : Memory, exec .strDec s = .next { s with tout := m, olen := s.len, status := 0 } ∧
      ∀ j, { s with tout := m }.toutRead j =
        if j < s.len.toNat then i2l (decWith inv (q j) s.keyb 52).toNat else s.toutRead j := by
  rw [exec_strDec_of_eq_some h hk]
  exact finishStream_of_letters _ hq

/-! ### One letter -/

/-- Encrypting the index of a letter gives an index of a letter. -/
theorem l2i_encrypted (x k b : Int) : l2i (i2l (enc x k b 52).toNat) = some (enc x k b 52).toNat := by
  obtain ⟨h0, hlt⟩ := enc_range (m := 52) (by norm_num) x k b
  exact l2i_i2l (by omega)

/-- Decrypting the encrypted index of a letter gives the letter (42_alphabet_stream.md R127). -/
theorem i2l_decrypted_encrypted {c : Byte} {i : Nat} {k inv : Int} (hc : l2i c = some i)
    (hinv : (k * inv) % 52 = 1) (b : Int) : i2l (decWith inv (enc i k b 52).toNat b 52).toNat = c := by
  obtain ⟨hlt, hi⟩ := l2i_some hc
  obtain ⟨h0, -⟩ := enc_range (m := 52) (by norm_num) i k b
  have hback : (i : Int) % 52 = i := Int.emod_eq_of_lt (by omega) (by omega)
  rw [Int.toNat_of_nonneg h0, decWith_enc hinv, hback, Int.toNat_natCast, hi]

/-! ### The statements -/

/-- Settles O39: the length of the output decides between the cases, and each position holds its digit's letter. -/
theorem stringifyWritesTheBase52Letters : Obligations.StringifyWritesTheBase52Letters := by
  refine fun s => ⟨exec_stringify_of_neg, fun hbig => ?_, fun h0 hsmall => ?_⟩
  · have h0 : 0 ≤ s.opa := le_trans (by positivity) hbig
    refine exec_stringify_of_maxLen_lt h0 (not_le.mp fun hle => ?_)
    exact hbig.not_gt ((stringify_toNat_length_le_iff h0 _).mp hle)
  · have hlen := stringify_toNat_length_le_iff h0
    refine ⟨(stringify s.opa.toNat).length, _, exec_stringify_of_le_maxLen h0 ((hlen _).mpr hsmall),
      (hlen _).mpr hsmall, (hlen _).mp le_rfl, fun e he => ?_, fun j => ?_⟩
    · exact not_lt.mp fun hlt => he.not_ge ((hlen e).mpr hlt)
    · conv_lhs => rw [stringify_eq_range_map]
      exact toutRead_writeTout_range_map s _ _ j

/-- Settles O40: the length decides, then whether each character of the text is a letter. -/
theorem strEncTransformsEachLetter : Obligations.StrEncTransformsEachLetter := by
  refine fun s => ⟨exec_strEnc_of_maxLen_lt, fun hl hbad => ?_, fun hl p hp => exec_strEnc_of_letters hl hp⟩
  exact (exec_strEnc_of_le_maxLen hl).trans (finishStream_of_invalidChar _ hbad)

/-- Settles O41: a key has an inverse exactly when it is coprime to 52, and STR_DEC uses the given one, because there is only
one in range. -/
theorem strDecTransformsEachLetterBack : Obligations.StrDecTransformsEachLetterBack := by
  refine fun s => ⟨exec_strDec_of_maxLen_lt, fun hl hg => ?_, fun hl hg hbad => ?_, fun hl inv h0 hlt hinv q hq => ?_⟩
  · exact exec_strDec_of_eq_none hl (minvEe_eq_none (by norm_num) hg)
  · obtain ⟨inv, hk⟩ := exists_minvEe_eq_some (by norm_num) hg
    exact (exec_strDec_of_eq_some hl hk).trans (finishStream_of_invalidChar _ hbad)
  · exact exec_strDec_of_letters hl ((minvEe_eq_some_iff (by norm_num)).mpr ⟨h0, hlt, hinv⟩) hq

/-- Settles O42: the output of STR_ENC is a text of letters, so STR_DEC takes each of them back. -/
theorem streamRoundTrip : Obligations.StreamRoundTrip := by
  intro s t u hl hletters hg henc hcfg hkeyk hkeyb hlen hcopy
  choose! p hp using fun j hj => Option.ne_none_iff_exists'.mp (hletters j hj)
  obtain ⟨m, hm, hout⟩ := exec_strEnc_of_letters hl hp
  obtain rfl := Host.Outcome.next.inj (henc.symm.trans hm)
  change u.cfg = s.cfg at hcfg
  change u.keyk = s.keyk at hkeyk
  change u.keyb = s.keyb at hkeyb
  change u.len = s.len at hlen
  obtain ⟨inv, hk⟩ := exists_minvEe_eq_some (by norm_num) hg
  obtain ⟨-, -, -, -, hinv⟩ := minvEe_some hk
  rw [← hkeyk] at hk
  rw [← hcfg, ← hlen] at hl
  have hcells : ∀ j < u.len.toNat, l2i (u.tinRead j) = some (enc (p j) s.keyk s.keyb 52).toNat := by
    intro j hj
    rw [hlen] at hj
    have hread : u.tinRead j = i2l (enc (p j) s.keyk s.keyb 52).toNat :=
      (hcopy j hj).trans ((hout j).trans (if_pos hj))
    rw [hread, l2i_encrypted]
  obtain ⟨m', hm', hout'⟩ := exec_strDec_of_letters hl hk hcells
  rw [← hlen]
  refine ⟨rfl, m', hm', fun j hj => ?_⟩
  rw [hout', if_pos hj, hkeyb, i2l_decrypted_encrypted (hp j (hlen ▸ hj)) hinv]

end Sys2Proof.Proofs
end

section
/-! SUPPORT. The block codec: each of its stages in the closed form in which the spec writes it, the next states of BLK_ENC
and BLK_DEC in each of their cases, and the statements about what the two commands compute (43_block_codec.md R140 to
R150). -/

namespace Sys2Proof.Proofs

open Sys2Proof.Machine

/-! ### The modulus and the counts (R140, R142, R147) -/

theorem blockModulus_eq_modulusForm (w : Nat) : blockModulus w = modulusForm w := by
  have h := blockModulus_eq w
  unfold modulusForm
  omega

theorem two_le_modulusForm {w : Nat} (hw : 0 < w) : 2 ≤ modulusForm w :=
  calc 2 ≤ blockModulus 1 := by decide
    _ ≤ blockModulus w := blockModulus_mono hw
    _ = modulusForm w := blockModulus_eq_modulusForm w

theorem partition_length_eq_blockCount {w : Nat} (hw : 0 < w) (p : List Nat) :
    (partition w p).length = blockCount p.length w :=
  partition_length hw p

theorem digits10_eq_max_digits_length (n : Nat) : digits10 n = max 1 (Nat.digits 10 n).length := by
  refine eq_of_forall_ge_iff fun d => ?_
  rcases Nat.eq_zero_or_pos d with rfl | hd
  · have h := digits10_pos n
    omega
  · rw [digits10_le_iff n d hd, max_le_iff, Nat.digits_length_le_iff (by norm_num)]
    exact (and_iff_right hd).symm

theorem chunkCount_eq_chunkForm (w c : Nat) : chunkCount w c = chunkForm c w := by
  rw [chunkCount, digits10_eq_max_digits_length, ceilDiv, chunkForm]

/-! ### The ciphertext as a sum (R142 to R145) -/

/-- The number of `n` parts of `w` groups each, written as the sum of R145. -/
theorem joinBlocks_range_map (w n : Nat) (f : Nat → Nat) :
    joinBlocks w ((List.range n).map f) = ∑ j ∈ Finset.range n, f j * 100 ^ (w * (n - 1 - j)) := by
  induction n generalizing f with
  | zero => rfl
  | succ n ih =>
    rw [List.range_succ_eq_map, List.map_cons, List.map_map, joinBlocks, ih, Finset.sum_range_succ', add_comm]
    simp [Nat.sub_sub, Nat.add_comm 1]

/-- A block's value is its indices joined as parts of one group each. -/
theorem blockValue_eq_joinBlocks_one (l : List Nat) : blockValue l = joinBlocks 1 l := by
  induction l with
  | nil => rfl
  | cons i l ih => rw [blockValue, joinBlocks, ih, one_mul]

theorem blockValue_range_map (n : Nat) (f : Nat → Nat) :
    blockValue ((List.range n).map f) = ∑ t ∈ Finset.range n, f t * 100 ^ (n - 1 - t) := by
  simp [blockValue_eq_joinBlocks_one, joinBlocks_range_map]

/-- Block `j` is `blockSize` letters of the text from `blockStart` on (R142). -/
theorem partition_getElem (w : Nat) (p : List Nat) (j : Nat) (hj : j < (partition w p).length) :
    (partition w p)[j] = (p.drop (blockStart p.length w j)).take (blockSize p.length w j) := by
  by_cases hr : p.length % w = 0
  · simp [partition, hr, wholeBlocks_getElem, blockStart, blockSize]
  · cases j with
    | zero => simp [partition, hr, blockStart, blockSize]
    | succ j => simp [partition, hr, wholeBlocks_getElem, blockStart, blockSize]

/-- Block `j` ends where `j` whole blocks end behind the short leftmost one, or `j + 1` when there is no short one. -/
theorem blockStart_add_blockSize (l w j : Nat) :
    blockStart l w j + blockSize l w j = l % w + (j + if l % w = 0 then 1 else 0) * w := by
  by_cases hr : l % w = 0
  · simp [blockStart, blockSize, hr, Nat.succ_mul]
  · cases j with
    | zero => simp [blockStart, blockSize, hr]
    | succ j => simp [blockStart, blockSize, hr, Nat.succ_mul, Nat.add_assoc]

/-- Every block lies within the text (R142). -/
theorem blockStart_add_blockSize_le {l w j : Nat} (hw : 0 < w) (hj : j < blockCount l w) :
    blockStart l w j + blockSize l w j ≤ l := by
  have hcount : blockCount l w = l / w + if l % w = 0 then 0 else 1 := ceilDiv_eq hw l
  have hwhole : (j + if l % w = 0 then 1 else 0) ≤ l / w := by
    split at hcount <;> split <;> omega
  calc blockStart l w j + blockSize l w j
      = l % w + (j + if l % w = 0 then 1 else 0) * w := blockStart_add_blockSize l w j
    _ ≤ l % w + l / w * w := Nat.add_le_add_left (Nat.mul_le_mul_right w hwhole) _
    _ = l := Nat.mod_add_div' l w

theorem take_drop_range_map {a n l : Nat} (h : a + n ≤ l) (f : Nat → Nat) :
    (((List.range l).map f).drop a).take n = (List.range n).map fun t => f (a + t) :=
  List.ext_getElem (by simp; omega) (by simp)

theorem partition_range_map {w : Nat} (hw : 0 < w) (l : Nat) (p : Nat → Nat) :
    partition w ((List.range l).map p) = (List.range (blockCount l w)).map fun j =>
      (List.range (blockSize l w j)).map fun t => p (blockStart l w j + t) := by
  refine List.ext_getElem (by simp [partition_length_eq_blockCount hw]) fun j hj hj' => ?_
  have hin := blockStart_add_blockSize_le hw (l := l) (j := j) (by simpa using hj')
  rw [partition_getElem]
  simp [take_drop_range_map hin]

theorem ciphertext_range_map {w : Nat} (hw : 0 < w) (l : Nat) (p : Nat → Nat) (k b : Int) :
    ciphertext ((List.range l).map p) k b w = ciphertextForm p k b l w := by
  rw [ciphertext, encryptedBlocks, partition_range_map hw, List.map_map, joinBlocks_range_map]
  simp [ciphertextForm, encryptedForm, blockForm, blockValue_range_map, enc, blockModulus_eq_modulusForm]

/-! ### The recovered indices by their position (R147 to R149) -/

/-- `n` rows of `w` entries, read row by row: entry `u` stands in row `u / w`, column `u % w`. -/
theorem flatMap_range_map (n w : Nat) (f : Nat → Nat → Nat) :
    ((List.range n).flatMap fun j => (List.range w).map (f j)) =
      (List.range (n * w)).map fun u => f (u / w) (u % w) := by
  induction n with
  | zero => simp
  | succ n ih =>
    have hrow : ∀ t ∈ List.range w, f n t = f ((n * w + t) / w) ((n * w + t) % w) := by
      intro t ht
      have ht := List.mem_range.mp ht
      rw [mul_comm, Nat.mul_add_div (by omega), Nat.mul_add_mod, Nat.div_eq_of_lt ht, Nat.mod_eq_of_lt ht, add_zero]
    rw [List.range_succ, List.flatMap_append, ih, List.flatMap_singleton, Nat.succ_mul, List.range_add, List.map_append,
      List.map_map, List.map_congr_left hrow]
    rfl

theorem recoveredIndices_eq_range_map (inv b : Int) (w c : Nat) :
    recoveredIndices inv b w c = (List.range (chunkForm c w * w)).map (indexForm inv b c w) := by
  simp only [recoveredIndices, chunks, digitGroups, List.flatMap_map, flatMap_range_map, decWith,
    chunkCount_eq_chunkForm, blockModulus_eq_modulusForm]
  rfl

theorem lastOf_range_map {l n : Nat} (h : l ≤ n) (f : Nat → Nat) :
    lastOf l ((List.range n).map f) = (List.range l).map fun j => f (n - l + j) :=
  List.ext_getElem (by simp [lastOf]; omega) (by simp [lastOf])

/-! ### The next states of BLK_ENC (R146) -/

theorem exec_blkEnc_of_operandRange {s : State} (h : s.cfg.maxLen < s.len.toNat ∨ s.cfg.maxWidth < s.width.toNat) :
    exec .blkEnc s = .next { s with status := 6 } :=
  if_pos h

theorem exec_blkEnc_of_width_zero {s : State} (hl : s.len.toNat ≤ s.cfg.maxLen) (hw : s.width = 0) :
    exec .blkEnc s = .next { s with status := 3 } := by
  have hw0 : s.width.toNat = 0 := by simp [hw]
  exact (if_neg (by omega)).trans (if_pos hw0)

section
variable {s : State} (hl : s.len.toNat ≤ s.cfg.maxLen) (hpos : 0 < s.width.toNat) (hw : s.width.toNat ≤ s.cfg.maxWidth)
include hl hpos hw

theorem exec_blkEnc_of_invalidChar (h : ∃ j < s.len.toNat, l2i (s.tinRead j) = none) :
    exec .blkEnc s = .next { s with status := 1 } := by
  rw [exec, execBlkEnc, if_neg (by omega), if_neg hpos.ne', letterIndices_text_none.mpr h]
  rfl

/-- On a text of letters only the register's limit is left to decide. -/
theorem exec_blkEnc_of_letters {p : Nat → Nat} (hp : ∀ j < s.len.toNat, l2i (s.tinRead j) = some (p j)) :
    exec .blkEnc s =
      if s.fits (ciphertextForm p s.keyk s.keyb s.len.toNat s.width.toNat) then
        .next { s with r0 := ciphertextForm p s.keyk s.keyb s.len.toNat s.width.toNat, status := 0 }
      else .next { s with status := 7 } := by
  rw [exec, execBlkEnc, if_neg (by omega), if_neg hpos.ne', letterIndices_text_of_letters hp]
  simp only [ciphertext_range_map hpos]
  rfl

end

/-! ### The next states of BLK_DEC (R150) -/

theorem exec_blkDec_of_operandRange {s : State}
    (h : s.opa < 0 ∨ s.cfg.maxLen < s.len.toNat ∨ s.cfg.maxWidth < s.width.toNat) :
    exec .blkDec s = .next { s with status := 6 } :=
  if_pos h

theorem exec_blkDec_of_width_zero {s : State} (h0 : 0 ≤ s.opa) (hl : s.len.toNat ≤ s.cfg.maxLen) (hw : s.width = 0) :
    exec .blkDec s = .next { s with status := 3 } := by
  have hw0 : s.width.toNat = 0 := by simp [hw]
  exact (if_neg (by omega)).trans (if_pos hw0)

section
variable {s : State} (h0 : 0 ≤ s.opa) (hl : s.len.toNat ≤ s.cfg.maxLen) (hpos : 0 < s.width.toNat)
  (hw : s.width.toNat ≤ s.cfg.maxWidth)
include h0 hl hpos hw

theorem exec_blkDec_of_eq_none (hk : minvEe s.keyk (modulusForm s.width.toNat) = none) :
    exec .blkDec s = .next { s with status := 2 } := by
  rw [exec, execBlkDec, if_neg (by omega), if_neg hpos.ne', blockModulus_eq_modulusForm, hk]
  rfl

/-- With an invertible key the number of recovered letters decides first, then whether each of them is an index. -/
theorem exec_blkDec_of_eq_some {inv : Int} (hk : minvEe s.keyk (modulusForm s.width.toNat) = some inv) {n : Nat}
    (hn : n = chunkForm s.opa.toNat s.width.toNat * s.width.toNat) :
    exec .blkDec s =
      if n < s.len.toNat then .next { s with status := 8 }
      else if ∃ u < n, 51 < indexForm inv s.keyb s.opa.toNat s.width.toNat u then .next { s with status := 9 }
      else .next { s with
        tout := (s.writeTout ((List.range s.len.toNat).map fun j =>
          i2l (indexForm inv s.keyb s.opa.toNat s.width.toNat (n - s.len.toNat + j)))).tout,
        olen := s.len, status := 0 } := by
  rw [exec, execBlkDec, if_neg (by omega), if_neg hpos.ne', blockModulus_eq_modulusForm, hk]
  dsimp only
  rw [chunkCount_eq_chunkForm, recoveredIndices_eq_range_map, ← hn]
  by_cases hshort : n < s.len.toNat
  · rw [if_pos hshort, if_pos hshort]
    rfl
  · rw [if_neg hshort, if_neg hshort, lastOf_range_map (not_lt.mp hshort), List.map_map]
    exact if_congr (by simp) rfl rfl

end

/-! ### The statements -/

/-- Settles O44: the checks in order, then the register's limit decides between the sum of R145 and the failure. -/
theorem blkEncReturnsTheCiphertext : Obligations.BlkEncReturnsTheCiphertext := by
  refine fun s => ⟨exec_blkEnc_of_operandRange, exec_blkEnc_of_width_zero, fun hl hw0 hw => ?_⟩
  have hpos : 0 < s.width.toNat := by bv_omega
  refine ⟨exec_blkEnc_of_invalidChar hl hpos hw, ?_⟩
  rintro p hp c rfl
  rw [exec_blkEnc_of_letters hl hpos hw hp]
  exact ⟨fun hfit => if_pos hfit, fun hfit => if_neg (by simp [hfit])⟩

/-- Settles O45: the checks in order; the given inverse is the one BLK_DEC uses, because there is only one in range. -/
theorem blkDecReturnsTheLastLetters : Obligations.BlkDecReturnsTheLastLetters := by
  refine fun s => ⟨exec_blkDec_of_operandRange, exec_blkDec_of_width_zero, fun h0 hl hw0 hw => ?_⟩
  have hpos : 0 < s.width.toNat := by bv_omega
  have hmod : (2 : Int) ≤ modulusForm s.width.toNat := by exact_mod_cast two_le_modulusForm hpos
  refine ⟨fun hg => exec_blkDec_of_eq_none h0 hl hpos hw (minvEe_eq_none (by omega) hg),
    fun inv hinv0 hlt hinv n hn => ?_⟩
  have hk : minvEe s.keyk (modulusForm s.width.toNat) = some inv :=
    (minvEe_eq_some_iff_of_two_le hmod).mpr ⟨pos_of_inverse hinv0 hinv, hlt, hinv⟩
  rw [exec_blkDec_of_eq_some h0 hl hpos hw hk hn]
  refine ⟨fun hshort => if_pos hshort, fun hlen hbad => ?_, fun hlen hgood => ?_⟩
  · rw [if_neg hlen.not_gt, if_pos hbad]
  · have hnone : ¬ ∃ u < n, 51 < indexForm inv s.keyb s.opa.toNat s.width.toNat u :=
      fun ⟨u, hu, hbig⟩ => (hgood u hu).not_gt hbig
    rw [if_neg hlen.not_gt, if_neg hnone]
    exact ⟨_, rfl, toutRead_writeTout_range_map s _ _⟩

end Sys2Proof.Proofs
end

section
/-! SUPPORT. What a failing command leaves unchanged, and the statement about failures (60_exceptions.md R174). -/

namespace Sys2Proof.Proofs

open Sys2Proof.Machine

/-- A command that does not end with `ST_OK` changes `STATUS` alone: each ending of a command that writes anything else
also writes `ST_OK` (60_exceptions.md R174). -/
theorem exec_eq_setStatus_of_status_ne_zero {i : Instr} {s t : State} (h : exec i s = .next t) (ht : t.status ≠ 0) :
    t = s.setStatus t.status := by
  have notOk : ∀ u : State, exec i s ≠ .next (u.setStatus Status.ok.word) := by
    intro u hu
    cases h.symm.trans hu
    exact ht rfl
  rcases exec_cases i s with ⟨st, -, -, he⟩ | ⟨-, v, -, he⟩ | ⟨-, he⟩ | ⟨-, l, -, he⟩
  · cases h.symm.trans he
    rfl
  · exact absurd he (notOk _)
  · exact absurd he (notOk _)
  · exact absurd he (notOk _)

/-- Settles O20: a reserved word sets `STATUS` to `ST_ILLEGAL_CMD`; a failing command starts from the state with its word
in `CMD` and changes `STATUS` alone. -/
theorem failureChangesOnlyCmdAndStatus : Obligations.FailureChangesOnlyCmdAndStatus := by
  intro s t rest w hstep ht
  cases hw : decode w with
  | none =>
    cases hstep.symm.trans (step_of_decode_eq_none hw s rest)
    rfl
  | some i =>
    exact exec_eq_setStatus_of_status_ne_zero ((step_of_decode_eq_some hw s rest).symm.trans hstep) ht

end Sys2Proof.Proofs
end

section
/-! SUPPORT. One access and one step, case by case; every step keeps the invariant, and a stream of defined accesses runs
on (10_state.md R21, R25, 20_memory.md R50, R56, 93_implementation_defined.md U11). -/

namespace Sys2Proof.Proofs

open Sys2Proof.Machine

/-! ### What an access can do -/

theorem issue_of_eq_some {w : Word} {i : Instr} (h : decode w = some i) (s : State) :
    issue w s = exec i (s.setCmd w) := by
  rw [issue, h]
  rfl

theorem issue_of_eq_none {w : Word} (h : decode w = none) (s : State) :
    issue w s = .next ((s.setCmd w).setStatus Status.illegalCmd.word) := by
  rw [issue, h]
  rfl

/-- An access of a cell is a step of the machine exactly when the cell exists (20_memory.md R52). -/
theorem withCell_eq_next_iff {j : Nat} {s k t : State} : withCell j s k = .next t ↔ j < s.cfg.maxLen ∧ k = t := by
  unfold withCell
  split <;> simp [*]

/-- A write of an integer is a step of the machine exactly when the register can hold it (10_state.md R23). -/
theorem hostWrInt_eq_next_iff {r : IntReg} {v : Int} {s t : State} :
    hostWrInt r v s = .next t ↔ s.fits v = true ∧ s.hostWriteInt r v = t := by
  unfold hostWrInt
  split <;> simp [*]

/-- Everything a command can change: the result registers, `STATUS`, `OLEN` and `TOUT` (10_state.md R22, R28). -/
theorem exec_frame {i : Instr} {s t : State} (h : exec i s = .next t) :
    t = { s with r0 := t.r0, r1 := t.r1, r2 := t.r2, status := t.status, olen := t.olen, tout := t.tout } := by
  rcases exec_cases i s with ⟨st, -, -, he⟩ | ⟨-, v, -, he⟩ | ⟨-, he⟩ | ⟨-, l, -, he⟩ <;> cases h.symm.trans he <;> rfl

theorem cfg_eq_of_exec {i : Instr} {s t : State} (h : exec i s = .next t) : t.cfg = s.cfg := by
  rw [exec_frame h]

theorem script_eq_of_exec {i : Instr} {s t : State} (h : exec i s = .next t) : t.script = s.script := by
  rw [exec_frame h]

/-- Every command ends (10_state.md R27). -/
theorem exec_next (i : Instr) (s : State) : ∃ t, exec i s = .next t := by
  rcases exec_cases i s with ⟨st, -, -, he⟩ | ⟨-, v, -, he⟩ | ⟨-, he⟩ | ⟨-, l, -, he⟩ <;> exact ⟨_, he⟩

/-- A write of a control register is a step of the machine, for any word. -/
theorem hostWrCtl_next_cfg_script (c : CtlReg) (w : Word) (s : State) :
    ∃ t, hostWrCtl c w s = .next t ∧ t.cfg = s.cfg ∧ t.script = s.script := by
  cases c with
  | cmd =>
    cases hw : decode w with
    | none => exact ⟨_, issue_of_eq_none hw s, rfl, rfl⟩
    | some i =>
      obtain ⟨t, ht⟩ := exec_next i (s.setCmd w)
      exact ⟨t, (issue_of_eq_some hw s).trans ht, cfg_eq_of_exec (s := s.setCmd w) ht,
        script_eq_of_exec (s := s.setCmd w) ht⟩
  | status | width | len | olen => exact ⟨_, rfl, rfl, rfl⟩

/-- A defined access is a step of the machine, and takes nothing from the stream itself
(93_implementation_defined.md U11). -/
theorem access_next_of_wf {a : HostAccess} {s : State} (h : a.wf s.cfg = true) :
    ∃ t, access a s = .next t ∧ t.cfg = s.cfg ∧ t.script = s.script := by
  have cell {j : Nat} {k : State} (hj : decide (j < s.cfg.maxLen) = true) : withCell j s k = .next k :=
    withCell_eq_next_iff.mpr ⟨of_decide_eq_true hj, rfl⟩
  cases a with
  | wrInt r v => exact ⟨_, hostWrInt_eq_next_iff.mpr ⟨h, rfl⟩, by cases r <;> rfl, by cases r <;> rfl⟩
  | wrCtl c w => exact hostWrCtl_next_cfg_script c w s
  | wrTin j v => exact ⟨_, cell h, rfl, rfl⟩
  | wrTout j v => exact ⟨_, cell h, rfl, rfl⟩
  | rdInt r => exact ⟨_, rfl, rfl, rfl⟩
  | rdCtl c => exact ⟨_, rfl, rfl, rfl⟩
  | rdTin j => exact ⟨_, cell h, rfl, rfl⟩
  | rdTout j => exact ⟨_, cell h, rfl, rfl⟩

/-! ### A stream of defined accesses -/

theorem step_of_script_eq_nil {s : State} (h : s.script = []) : step s = .next s := by
  rw [step, nextAccess, h]

theorem step_of_script_eq_cons {s : State} {a : HostAccess} {rest : List HostAccess} (h : s.script = a :: rest) :
    step s = access a (s.setScript rest) := by
  rw [step, nextAccess, h]

theorem step_next_of_scriptWf {s : State} (h : ScriptWf s) : ∃ t, step s = .next t ∧ ScriptWf t := by
  cases hs : s.script with
  | nil => exact ⟨s, step_of_script_eq_nil hs, h⟩
  | cons a rest =>
    obtain ⟨ha, hrest⟩ := List.forall_mem_cons.mp (show ∀ b ∈ a :: rest, b.wf s.cfg = true from hs ▸ h)
    obtain ⟨t, ht, hcfg, hscript⟩ := access_next_of_wf (s := s.setScript rest) ha
    refine ⟨t, (step_of_script_eq_cons hs).trans ht, ?_⟩
    rw [ScriptWf, hcfg, hscript]
    exact hrest

/-- Settles O15, by induction on the number of steps: a step on a stream of defined accesses, or on the empty stream of
the idle engine (log 2), answers a next state with such a stream. -/
theorem definedHostStreamNeverStops : Obligations.DefinedHostStreamNeverStops := by
  intro k
  induction k with
  | zero => exact fun s hs => ⟨s, rfl, hs⟩
  | succ k ih =>
    intro s hs
    obtain ⟨u, hu, hwf⟩ := step_next_of_scriptWf hs
    obtain ⟨t, ht, hwf'⟩ := ih u hwf
    exact ⟨t, (run_succ (M := core) k hu).trans ht, hwf'⟩

/-! ### The invariant -/

section
variable {s : State} (h : EngineInv s)
include h

theorem engineInv_setScript (l : List HostAccess) : EngineInv (s.setScript l) := { h with }

theorem engineInv_observe (v : HostValue) : EngineInv (s.observe v) := { h with }

theorem engineInv_setCmd (w : Word) : EngineInv (s.setCmd w) := { h with }

theorem engineInv_setWidth (w : Word) : EngineInv (s.setWidth w) := { h with }

theorem engineInv_setLen (w : Word) : EngineInv (s.setLen w) := { h with }

theorem engineInv_setStatus (st : Status) : EngineInv (s.setStatus st.word) :=
  { h with status_legal := status_word_le st }

/-- The register invariant after an update that leaves in each integer register a representable value or the old one. -/
theorem ints_fit_of_readInt {t : State} {v : Int} (hcfg : t.cfg = s.cfg) (hv : s.fits v = true)
    (ht : ∀ r, t.readInt r = v ∨ t.readInt r = s.readInt r) (r : IntReg) : t.fits (t.readInt r) = true := by
  rw [State.fits, hcfg]
  rcases ht r with hr | hr
  · exact hr ▸ hv
  · exact hr ▸ h.ints_fit r

theorem engineInv_setR0 {v : Int} (hv : s.fits v = true) : EngineInv (s.setR0 v) :=
  { h with ints_fit := ints_fit_of_readInt h rfl hv fun r => by cases r <;> simp [State.readInt] }

theorem engineInv_setR1 {v : Int} (hv : s.fits v = true) : EngineInv (s.setR1 v) :=
  { h with ints_fit := ints_fit_of_readInt h rfl hv fun r => by cases r <;> simp [State.readInt] }

theorem engineInv_setR2 {v : Int} (hv : s.fits v = true) : EngineInv (s.setR2 v) :=
  { h with ints_fit := ints_fit_of_readInt h rfl hv fun r => by cases r <;> simp [State.readInt] }

theorem engineInv_hostWriteInt (r : IntReg) {v : Int} (hv : s.fits v = true) : EngineInv (s.hostWriteInt r v) := by
  cases r with
  | opa | opm | keyk | keyb =>
    exact { h with
      ints_fit := ints_fit_of_readInt h rfl hv fun q => by cases q <;> simp [State.hostWriteInt, State.readInt] }
  | r0 | r1 | r2 => exact h

theorem engineInv_setTin_set {j : Nat} (hj : j < s.cfg.maxLen) (v : Byte) : EngineInv (s.setTin (s.tin.set j v)) :=
  { h with tin_wf := set_wf h.tin_wf j v, tin_below := set_below h.tin_below hj v }

theorem engineInv_writeTout {codes : List Byte} (hl : codes.length ≤ s.cfg.maxLen) : EngineInv (s.writeTout codes) :=
  { h with
    tout_wf := writeFrom_wf codes h.tout_wf 0
    tout_below := writeFrom_below codes h.tout_below 0 (by omega) }

theorem engineInv_setOlen {n : Word} (hn : n.toNat ≤ s.cfg.maxLen) : EngineInv (s.setOlen n) := { h with olen_le := hn }

/-- EGCD's results are no larger than its operands, or than 1 (40_number_theory.md R94). -/
theorem fits_egcd : s.fits (egcd s.opa s.opm).2.1 = true ∧ s.fits (egcd s.opa s.opm).2.2 = true := by
  obtain ⟨-, -, hx, hy⟩ := egcd_spec s.opa s.opm
  exact ⟨fits_of_le h.cfg_wf (h.ints_fit .opm) hx, fits_of_le h.cfg_wf (h.ints_fit .opa) hy⟩

/-- Every ending of a command keeps the invariant: a code from 0 to 9, representable results, a text of
existing cells. -/
theorem engineInv_exec {i : Instr} {t : State} (he : exec i s = .next t) : EngineInv t := by
  rcases exec_cases i s with ⟨st, -, -, he'⟩ | ⟨-, v, hv, he'⟩ | ⟨-, he'⟩ | ⟨-, l, hl, he'⟩
    <;> obtain rfl := Host.Outcome.next.inj (he.symm.trans he')
  · exact engineInv_setStatus h st
  · exact engineInv_setStatus (engineInv_setR0 h (hv h)) .ok
  · obtain ⟨hx, hy⟩ := fits_egcd h
    have hg := fits_gcd (h.ints_fit .opa) (h.ints_fit .opm)
    exact engineInv_setStatus (engineInv_setR2 (engineInv_setR1 (engineInv_setR0 h hg) hx) hy) .ok
  · have hn : (BitVec.ofNat 32 l.length).toNat ≤ s.cfg.maxLen := (Nat.mod_le _ _).trans hl
    exact engineInv_setStatus (engineInv_setOlen (engineInv_writeTout h hl) hn) .ok

theorem engineInv_hostWrCtl {c : CtlReg} {w : Word} {t : State} (ht : hostWrCtl c w s = .next t) : EngineInv t := by
  cases c with
  | cmd =>
    have hc := engineInv_setCmd h w
    cases hw : decode w with
    | none =>
      obtain rfl := Host.Outcome.next.inj ((issue_of_eq_none hw s).symm.trans ht)
      exact engineInv_setStatus hc .illegalCmd
    | some i => exact engineInv_exec hc ((issue_of_eq_some hw s).symm.trans ht)
  | width => exact Host.Outcome.next.inj ht ▸ engineInv_setWidth h w
  | len => exact Host.Outcome.next.inj ht ▸ engineInv_setLen h w
  | status | olen => exact Host.Outcome.next.inj ht ▸ h

theorem engineInv_access {a : HostAccess} {t : State} (ht : access a s = .next t) : EngineInv t := by
  cases a with
  | wrInt r v =>
    obtain ⟨hv, rfl⟩ := hostWrInt_eq_next_iff.mp ht
    exact engineInv_hostWriteInt h r hv
  | wrCtl c w => exact engineInv_hostWrCtl h ht
  | wrTin j v =>
    obtain ⟨hj, rfl⟩ := withCell_eq_next_iff.mp ht
    exact engineInv_setTin_set h hj v
  | wrTout j v =>
    obtain ⟨-, rfl⟩ := withCell_eq_next_iff.mp ht
    exact h
  | rdInt r => exact Host.Outcome.next.inj ht ▸ engineInv_observe h _
  | rdCtl c => exact Host.Outcome.next.inj ht ▸ engineInv_observe h _
  | rdTin j | rdTout j =>
    obtain ⟨-, rfl⟩ := withCell_eq_next_iff.mp ht
    exact engineInv_observe h _

end

/-- Settles O18: the step takes an access from the stream, which the invariant does not mention, and the access
keeps it. -/
theorem everyStepKeepsTheInvariant : Obligations.EveryStepKeepsTheInvariant := by
  intro s t h ht
  cases hs : s.script with
  | nil => exact Host.Outcome.next.inj ((step_of_script_eq_nil hs).symm.trans ht) ▸ h
  | cons a rest => exact engineInv_access (engineInv_setScript h rest) ((step_of_script_eq_cons hs).symm.trans ht)

/-- Settles O17: every register and both text spaces are empty at reset, and the parameters of log 1 meet R5. -/
theorem resetMeetsTheInvariant : Obligations.ResetMeetsTheInvariant where
  cfg_wf := by decide
  ints_fit := fun r => by rw [reset_readInt]; rfl
  status_legal := by decide
  olen_le := by decide
  tin_wf := .nil
  tin_below := by simp [State.reset]
  tout_wf := .nil
  tout_below := by simp [State.reset]

end Sys2Proof.Proofs
end

section
/-! SUPPORT. The statements about the decoder, about a step on a command word and without an access, and about one host
access (30_encoding.md R72, 10_state.md R21 to R26, 20_memory.md R52, R57). -/

namespace Sys2Proof.Proofs

open Sys2Proof.Machine

/-- Settles O3: the decoder's law. -/
theorem decodeAndEncodeAgree : Obligations.DecodeAndEncodeAgree := fun _ _ => decode_eq_some_iff

/-- Settles O2: six of the table's words are the encodings of the commands beside them, and two words no encoding. -/
theorem sampleWordsDecodeAsTheTableSays : Obligations.SampleWordsDecodeAsTheTableSays :=
  ⟨decode_encode .gcd, decode_encode .minvEe, decode_encode .affDec, decode_encode .stringify, decode_encode .strDec,
    decode_encode .blkEnc, decode_eq_none_iff.mpr fun i => by cases i <;> decide,
    decode_eq_none_iff.mpr fun i => by cases i <;> decide⟩

/-- Settles O6: the decoder's answer is the command that is run. -/
theorem stepRunsTheDecodedCommand : Obligations.StepRunsTheDecodedCommand :=
  fun s rest _ _ h => step_of_decode_eq_some h s rest

/-- Settles O7: the idle step. -/
theorem idleEngineHoldsItsState : Obligations.IdleEngineHoldsItsState := fun _ => step_of_script_eq_nil rfl

/-! ### One access of the stream -/

/-- The range of a register of `n` bits, by its two ends (10_state.md R21). -/
theorem fits_finite_iff {s : State} {n : Nat} (h : s.cfg.intBits = .finite n) {v : Int} :
    s.fits v = true ↔ -(2 ^ (n - 1) - 1) ≤ v ∧ v ≤ 2 ^ (n - 1) - 1 := by
  have hpos : 0 < 2 ^ (n - 1) := by positivity
  have hcast : ((2 ^ (n - 1) : Nat) : Int) = 2 ^ (n - 1) := by norm_cast
  rw [State.fits, h, IntBits.fits, decide_eq_true_iff, ← hcast]
  omega

/-- An integer fits when it lies in the range of the register, if that is finite. -/
theorem fits_of_range {s : State} {v : Int}
    (h : ∀ n, s.cfg.intBits = .finite n → -(2 ^ (n - 1) - 1) ≤ v ∧ v ≤ 2 ^ (n - 1) - 1) : s.fits v = true := by
  cases hb : s.cfg.intBits with
  | finite n => exact (fits_finite_iff hb).mpr (h n hb)
  | unbounded => rw [State.fits, hb]; rfl

theorem step_wrInt_of_fits {s : State} {v : Int} (h : s.fits v = true) (r : IntReg) (rest : List HostAccess) :
    step { s with script := .wrInt r v :: rest } = .next ({ s with script := rest }.hostWriteInt r v) :=
  hostWrInt_eq_next_iff.mpr ⟨h, rfl⟩

/-- Settles O9: the value decides whether the write is a step, the register whether it is stored. -/
theorem hostIntegerWriteStoresOrIsRefused : Obligations.HostIntegerWriteStoresOrIsRefused := by
  refine fun s rest v => ⟨fun h => ?_, fun n r hb h => ?_⟩
  · have hstep := fun r => step_wrInt_of_fits (fits_of_range h) r rest
    exact ⟨hstep .opa, hstep .opm, hstep .keyk, hstep .keyb, hstep .r0, hstep .r1, hstep .r2⟩
  · have hfit : ¬ s.fits v = true := fun hfit => by
      obtain ⟨hlo, hhi⟩ := (fits_finite_iff hb).mp hfit
      omega
    exact if_neg hfit

/-- Settles O10: each write by its own rule; a write of `TOUT` only asks whether the cell exists. -/
theorem hostControlWritesStoreOrAreIgnored : Obligations.HostControlWritesStoreOrAreIgnored :=
  fun _ _ _ _ _ => ⟨rfl, rfl, rfl, rfl, fun hj => withCell_eq_next_iff.mpr ⟨hj, rfl⟩⟩

/-- Settles O11: each register by its own field; a read of a cell asks whether the cell exists. -/
theorem hostReadReturnsTheStoredValue : Obligations.HostReadReturnsTheStoredValue :=
  fun _ _ _ => ⟨rfl, rfl, rfl, rfl, rfl, rfl, rfl, rfl, rfl, rfl, rfl, rfl,
    fun hj => withCell_eq_next_iff.mpr ⟨hj, rfl⟩, fun hj => withCell_eq_next_iff.mpr ⟨hj, rfl⟩⟩

/-- Settles O12: the cell that was written holds the code, every other cell what it held. -/
theorem tinReadsBackWhatTheHostWrote : Obligations.TinReadsBackWhatTheHostWrote := by
  intro s rest j c hj
  refine ⟨s.tin.set j c, withCell_eq_next_iff.mpr ⟨hj, rfl⟩, ?_, fun k hk => ?_, fun k => tinRead_of_get?_eq_none⟩
  · exact (tinRead_set s j j c).trans (if_pos rfl)
  · exact (tinRead_set s j k c).trans (if_neg hk)

theorem withCell_of_le {s : State} {j : Nat} (h : s.cfg.maxLen ≤ j) (k : State) : withCell j s k = .fault .noSuchCell :=
  if_neg h.not_gt

/-- Settles O13: each access of a cell asks first whether the cell exists. -/
theorem missingCellFaults : Obligations.MissingCellFaults :=
  fun s rest _ _ hj => have h := withCell_of_le (s := { s with script := rest }) hj; ⟨h _, h _, h _, h _⟩

/-! ### Text spaces in canonical form -/

theorem get?_set (m : Memory) (a b : Nat) (v : Byte) : (m.set a v).get? b = if b = a then some v else m.get? b := by
  split
  · subst_vars; exact get?_set_same m _ v
  · exact get?_set_other m v ‹_›

/-- No cell below the first listed one is listed. -/
theorem get?_eq_none_of_forall_lt {m : Memory} {a : Nat} (h : ∀ c ∈ m, a < c.1) : m.get? a = none := by
  induction m with
  | nil => rfl
  | cons c m ih =>
    obtain ⟨hc, hm⟩ := List.forall_mem_cons.mp h
    rw [Memory.get?, if_neg hc.ne, ih hm]

/-- A cell that another text space lists first does not lie below the first one listed. -/
theorem head_le_of_get?_eq {a b : Nat} {v w : Byte} {m n : Memory} (hn : ∀ c ∈ n, b < c.1)
    (h : Memory.get? ((a, v) :: m) a = Memory.get? ((b, w) :: n) a) : b ≤ a := by
  by_contra hlt
  have hab := not_le.mp hlt
  have hnone : Memory.get? n a = none := get?_eq_none_of_forall_lt fun c hc => hab.trans (hn c hc)
  simp [Memory.get?, hnone, hab.ne] at h

/-- A text space in canonical form is determined by what its cells hold (log 4). -/
theorem memory_ext {m n : Memory} (hm : m.wf) (hn : n.wf) (h : ∀ a, m.get? a = n.get? a) : m = n := by
  induction m generalizing n with
  | nil =>
    cases n with
    | nil => rfl
    | cons d n => simpa [Memory.get?] using h d.1
  | cons c m ih =>
    cases n with
    | nil => simpa [Memory.get?] using h c.1
    | cons d n =>
      obtain ⟨a, v⟩ := c
      obtain ⟨b, w⟩ := d
      obtain ⟨ha, hm'⟩ := List.pairwise_cons.mp hm
      obtain ⟨hb, hn'⟩ := List.pairwise_cons.mp hn
      obtain rfl : a = b := le_antisymm (head_le_of_get?_eq ha (h b).symm) (head_le_of_get?_eq hb (h a))
      obtain rfl : v = w := by simpa [Memory.get?] using h a
      refine congrArg _ (ih hm' hn' fun i => ?_)
      by_cases hi : i = a
      · rw [hi, get?_eq_none_of_forall_lt ha, get?_eq_none_of_forall_lt hb]
      · simpa [Memory.get?, hi] using h i

/-- Writes of two cells can change places. -/
theorem memory_set_comm {m : Memory} (h : m.wf) {a b : Nat} (hab : a ≠ b) (v w : Byte) :
    (m.set a v).set b w = (m.set b w).set a v := by
  refine memory_ext (set_wf (set_wf h a v) b w) (set_wf (set_wf h b w) a v) fun i => ?_
  rw [get?_set, get?_set, get?_set, get?_set]
  split_ifs with hb ha
  · exact absurd (ha.symm.trans hb) hab
  all_goals rfl

/-- Writing a text a second time changes nothing. -/
theorem memory_writeFrom_idem {m : Memory} (h : m.wf) (a : Nat) (vs : List Byte) :
    (m.writeFrom a vs).writeFrom a vs = m.writeFrom a vs := by
  refine memory_ext (writeFrom_wf vs (writeFrom_wf vs h a) a) (writeFrom_wf vs h a) fun i => ?_
  rw [get?_writeFrom, get?_writeFrom]
  split <;> rfl

/-! ### Two writes of the host -/

/-- What a defined host write, of anything but `CMD`, makes of the state (10_state.md R23, R25, 20_memory.md R50,
R57). -/
def hostWrite (a : HostAccess) (s : State) : State :=
  match a with
  | .wrInt r v => s.hostWriteInt r v
  | .wrCtl c w => s.hostWriteCtl c w
  | .wrTin j v => s.setTin (s.tin.set j v)
  | _ => s

theorem access_eq_hostWrite {a : HostAccess} {s : State} (hwf : a.wf s.cfg = true) (hwrite : writeTarget a ≠ none)
    (hcmd : writeTarget a ≠ some (1, 0)) : access a s = .next (hostWrite a s) := by
  cases a with
  | wrInt r v => exact hostWrInt_eq_next_iff.mpr ⟨hwf, rfl⟩
  | wrCtl c w =>
    cases c with
    | cmd => exact absurd rfl hcmd
    | status | width | len | olen => rfl
  | wrTin j v | wrTout j v => exact withCell_eq_next_iff.mpr ⟨of_decide_eq_true hwf, rfl⟩
  | rdInt r | rdCtl c | rdTin j | rdTout j => exact absurd rfl hwrite

theorem hostWrite_cfg (a : HostAccess) (s : State) : (hostWrite a s).cfg = s.cfg := by
  cases a with
  | wrInt r v => cases r <;> rfl
  | wrCtl c w => cases c <;> rfl
  | wrTin | wrTout | rdInt | rdCtl | rdTin | rdTout => rfl

/-- An access of the stream does not touch the accesses still to come. -/
theorem hostWrite_setScript (a : HostAccess) (s : State) (l : List HostAccess) :
    hostWrite a (s.setScript l) = (hostWrite a s).setScript l := by
  cases a with
  | wrInt r v => cases r <;> rfl
  | wrCtl c w => cases c <;> rfl
  | wrTin | wrTout | rdInt | rdCtl | rdTin | rdTout => rfl

theorem hostWriteInt_comm {r q : IntReg} (h : r ≠ q) (s : State) (v w : Int) :
    (s.hostWriteInt r v).hostWriteInt q w = (s.hostWriteInt q w).hostWriteInt r v := by
  cases r <;> cases q <;> trivial

theorem hostWriteCtl_comm {c d : CtlReg} (h : c ≠ d) (s : State) (v w : Word) :
    (s.hostWriteCtl c v).hostWriteCtl d w = (s.hostWriteCtl d w).hostWriteCtl c v := by
  cases c <;> cases d <;> trivial

theorem hostWriteInt_hostWriteCtl_comm (s : State) (r : IntReg) (v : Int) (c : CtlReg) (w : Word) :
    (s.hostWriteInt r v).hostWriteCtl c w = (s.hostWriteCtl c w).hostWriteInt r v := by
  cases c <;> cases r <;> rfl

theorem hostWriteInt_tin (s : State) (r : IntReg) (v : Int) : (s.hostWriteInt r v).tin = s.tin := by
  cases r <;> rfl

theorem hostWriteCtl_tin (s : State) (c : CtlReg) (w : Word) : (s.hostWriteCtl c w).tin = s.tin := by
  cases c <;> rfl

theorem hostWriteInt_setTin_comm (s : State) (r : IntReg) (v : Int) (m : Memory) :
    (s.hostWriteInt r v).setTin m = (s.setTin m).hostWriteInt r v := by
  cases r <;> rfl

theorem hostWriteCtl_setTin_comm (s : State) (c : CtlReg) (w : Word) (m : Memory) :
    (s.hostWriteCtl c w).setTin m = (s.setTin m).hostWriteCtl c w := by
  cases c <;> rfl

/-- Writes of two locations can change places (70_reset_and_hazards.md R202): they update different fields, or different
cells of `TIN`. -/
theorem hostWrite_comm {s : State} (hs : s.tin.wf) {a b : HostAccess} (h : writeTarget a ≠ writeTarget b) :
    hostWrite b (hostWrite a s) = hostWrite a (hostWrite b s) := by
  match a, b with
  | .wrInt r v, .wrInt q w => exact hostWriteInt_comm (ne_of_apply_ne (fun r => some (0, intRegNumber r)) h) s v w
  | .wrInt r v, .wrCtl c w => exact hostWriteInt_hostWriteCtl_comm s r v c w
  | .wrCtl c w, .wrInt r v => exact (hostWriteInt_hostWriteCtl_comm s r v c w).symm
  | .wrCtl c v, .wrCtl d w => exact hostWriteCtl_comm (ne_of_apply_ne (fun c => some (1, ctlRegNumber c)) h) s v w
  | .wrInt r v, .wrTin j c => simp only [hostWrite, hostWriteInt_tin, hostWriteInt_setTin_comm]
  | .wrTin j c, .wrInt r v => simp only [hostWrite, hostWriteInt_tin, hostWriteInt_setTin_comm]
  | .wrCtl d w, .wrTin j c => simp only [hostWrite, hostWriteCtl_tin, hostWriteCtl_setTin_comm]
  | .wrTin j c, .wrCtl d w => simp only [hostWrite, hostWriteCtl_tin, hostWriteCtl_setTin_comm]
  | .wrTin j c, .wrTin k d => exact congrArg s.setTin (memory_set_comm hs (ne_of_apply_ne (fun j => some (2, j)) h) c d)
  | .wrTout _ _, _ | .rdInt _, _ | .rdCtl _, _ | .rdTin _, _ | .rdTout _, _ => rfl
  | _, .wrTout _ _ | _, .rdInt _ | _, .rdCtl _ | _, .rdTin _ | _, .rdTout _ => rfl

theorem core_step_hostWrite {s : State} {a : HostAccess} (rest : List HostAccess) (hwf : a.wf s.cfg = true)
    (hwrite : writeTarget a ≠ none) (hcmd : writeTarget a ≠ some (1, 0)) :
    core.step (s.setScript (a :: rest)) = .next ((hostWrite a s).setScript rest) :=
  (access_eq_hostWrite (s := s.setScript rest) hwf hwrite hcmd).trans
    (congrArg _ (hostWrite_setScript a s rest))

/-- A stream of two defined writes, run to its end. -/
theorem run_two_hostWrites {s : State} {a b : HostAccess} (ha : a.wf s.cfg = true) (hb : b.wf s.cfg = true)
    (ha' : writeTarget a ≠ none) (hb' : writeTarget b ≠ none) (hac : writeTarget a ≠ some (1, 0))
    (hbc : writeTarget b ≠ some (1, 0)) :
    core.run 2 (s.setScript [a, b]) = .next ((hostWrite b (hostWrite a s)).setScript []) := by
  have hb : b.wf (hostWrite a s).cfg = true := hostWrite_cfg a s ▸ hb
  exact (run_succ 1 (core_step_hostWrite [b] ha ha' hac)).trans
    ((run_one core _).trans (core_step_hostWrite [] hb hb' hbc))

/-- Settles O14: either order makes the two updates of different locations. -/
theorem hostWritesToDifferentLocationsCommute : Obligations.HostWritesToDifferentLocationsCommute := by
  intro s a b hs ha hb ha' hb' hne hac hbc
  refine ⟨_, run_two_hostWrites ha hb ha' hb' hac hbc, ?_⟩
  rw [hostWrite_comm hs hne]
  exact run_two_hostWrites hb ha hb' ha' hbc hac

end Sys2Proof.Proofs
end

section
/-! SUPPORT. A command reads its inputs only: two states that agree on them end it alike (10_state.md R20). The statements
about the outcome, the frame and the repetition of commands (10_state.md R20 to R28, 60_exceptions.md R170 to R176,
70_reset_and_hazards.md R195, R202). -/

namespace Sys2Proof.Proofs

open Sys2Proof.Machine

/-! ### Two states that agree on a command's inputs -/

/-- The command ends alike in the states `s` and `u`: with the same failure, or writing the same results, or the same text,
into each of them. -/
inductive EndsAlike (i : Instr) (s u : State) : Host.Outcome State Fault Refusal →
    Host.Outcome State Fault Refusal → Prop
  | fail {st : Status} (h : st ≠ .ok) : EndsAlike i s u (raise st s) (raise st u)
  | int (h : i ∉ [Instr.stringify, .strEnc, .strDec, .blkDec, .egcd]) (v : Int) :
      EndsAlike i s u (succeed (s.setR0 v)) (succeed (u.setR0 v))
  | triple (h : i = .egcd) (g x y : Int) :
      EndsAlike i s u (succeed (((s.setR0 g).setR1 x).setR2 y)) (succeed (((u.setR0 g).setR1 x).setR2 y))
  | text (h : i ∈ [Instr.stringify, .strEnc, .strDec, .blkDec]) {l : List Byte} {n : Word} (hn : n.toNat ≤ l.length) :
      EndsAlike i s u (succeed ((s.writeTout l).setOlen n)) (succeed ((u.writeTout l).setOlen n))

section
variable {i : Instr} {s u : State}

theorem fits_eq_of_cfg_eq (hc : s.cfg = u.cfg) (v : Int) : u.fits v = s.fits v := by
  unfold State.fits
  rw [hc]

theorem finishInverse_endsAlike (h : i ∉ [Instr.stringify, .strEnc, .strDec, .blkDec, .egcd]) (inv : Option Int) :
    EndsAlike i s u (finishInverse inv s) (finishInverse inv u) := by
  cases inv with
  | none => exact .fail (by decide)
  | some v => exact .int h v

theorem finishStream_endsAlike (h : i ∈ [Instr.stringify, .strEnc, .strDec, .blkDec]) (ht : SameText s u)
    (f : Int → Int) : EndsAlike i s u (finishStream f (letterIndices s.text) s) (finishStream f (letterIndices u.text) u) := by
  rw [text_eq_of_sameText ht]
  cases hp : letterIndices s.text with
  | none => exact .fail (by decide)
  | some p =>
    rw [finishStream, finishStream, ← ht.1]
    exact .text h (by simp [letterIndices_length hp])

end

/-- A command ends alike in any two states, of one engine, that agree on its inputs (10_state.md R20). -/
theorem exec_endsAlike {i : Instr} {s u : State} (hc : s.cfg = u.cfg) (h : SameInputs i s u) :
    EndsAlike i s u (exec i s) (exec i u) := by
  cases i with
  | gcd =>
    obtain ⟨ha, hm⟩ := h
    rw [exec, exec, execGcd, execGcd, ← ha, ← hm]
    exact .int (by decide) _
  | egcd =>
    obtain ⟨ha, hm⟩ := h
    rw [exec, exec, execEgcd, execEgcd, ← ha, ← hm]
    exact .triple rfl _ _ _
  | minvBf =>
    obtain ⟨ha, hm⟩ := h
    rw [exec, exec, execMinvBf, execMinvBf, ← ha, ← hm]
    exact finishInverse_endsAlike (by decide) _
  | minvEe =>
    obtain ⟨ha, hm⟩ := h
    rw [exec, exec, execMinvEe, execMinvEe, ← ha, ← hm]
    exact finishInverse_endsAlike (by decide) _
  | affEnc =>
    obtain ⟨ha, hm, hk, hb⟩ := h
    rw [exec, exec, execAffEnc, execAffEnc, ← ha, ← hm, ← hk, ← hb]
    split
    · exact .fail (by decide)
    · exact .int (by decide) _
  | affDec =>
    obtain ⟨ha, hm, hk, hb⟩ := h
    rw [exec, exec, execAffDec, execAffDec, ← ha, ← hm, ← hk, ← hb]
    split
    · exact .fail (by decide)
    · split
      · exact .fail (by decide)
      · exact .int (by decide) _
  | stringify =>
    have ha : s.opa = u.opa := h
    rw [exec, exec, execStringify, execStringify, ← ha, ← hc]
    split
    · exact .fail (by decide)
    · split
      · exact .fail (by decide)
      · exact .text (by decide) (Nat.mod_le _ _)
  | strEnc =>
    obtain ⟨ht, hk, hb⟩ := h
    rw [exec, exec, execStrEnc, execStrEnc, ← ht.1, ← hc, ← hk, ← hb]
    split
    · exact .fail (by decide)
    · exact finishStream_endsAlike (by decide) ht _
  | strDec =>
    obtain ⟨ht, hk, hb⟩ := h
    rw [exec, exec, execStrDec, execStrDec, ← ht.1, ← hc, ← hk, ← hb]
    split
    · exact .fail (by decide)
    · cases minvEe s.keyk alphabetSize with
      | none => exact .fail (by decide)
      | some inv => exact finishStream_endsAlike (by decide) ht _
  | blkEnc =>
    obtain ⟨ht, hk, hb, hw⟩ := h
    rw [exec, exec, execBlkEnc, execBlkEnc, ← ht.1, ← hc, ← hk, ← hb, ← hw, text_eq_of_sameText ht]
    simp only [fits_eq_of_cfg_eq hc]
    split
    · exact .fail (by decide)
    · split
      · exact .fail (by decide)
      · cases letterIndices s.text with
        | none => exact .fail (by decide)
        | some p =>
          dsimp only
          split
          · exact .int (by decide) _
          · exact .fail (by decide)
  | blkDec =>
    obtain ⟨ha, hk, hb, hw, hl⟩ := h
    rw [exec, exec, execBlkDec, execBlkDec, ← ha, ← hc, ← hk, ← hb, ← hw, ← hl]
    split
    · exact .fail (by decide)
    · split
      · exact .fail (by decide)
      · cases minvEe s.keyk (blockModulus s.width.toNat) with
        | none => exact .fail (by decide)
        | some inv =>
          dsimp only
          split
          · exact .fail (by decide)
          · split
            · exact .fail (by decide)
            · refine .text (by decide) ?_
              rw [List.length_map, lastOf_length (by rw [recoveredIndices_length]; omega)]

/-! ### Registers and cells that commands write -/

/-- A command never reads what a command writes (70_reset_and_hazards.md R195). -/
theorem sameInputs_of_frame (i : Instr) (s : State) (x0 x1 x2 : Int) (st n : Word) (m : Memory) :
    SameInputs i s { s with r0 := x0, r1 := x1, r2 := x2, status := st, olen := n, tout := m } := by
  have htext : SameText s { s with r0 := x0, r1 := x1, r2 := x2, status := st, olen := n, tout := m } :=
    ⟨rfl, fun _ _ => rfl⟩
  cases i <;> simp [SameInputs, htext]

theorem sameInputs_of_exec {i : Instr} {s t : State} (h : exec i s = .next t) : SameInputs i s t := by
  rw [exec_frame h]
  exact sameInputs_of_frame i s _ _ _ _ _ _

/-! ### The outcome -/

/-- Settles O19: each of the endings of a command has one of its codes, and every command can end with `ST_OK`. -/
theorem everyCommandEndsWithAPossibleCode : Obligations.EveryCommandEndsWithAPossibleCode := by
  intro i s
  have hok : Status.ok.word.toNat ∈ possibleCodes i := by cases i <;> decide
  rcases exec_cases i s with ⟨st, -, hst, he⟩ | ⟨-, v, -, he⟩ | ⟨-, he⟩ | ⟨-, l, -, he⟩
  · exact ⟨_, he, (status_word_toNat st).symm ▸ hst⟩
  all_goals exact ⟨_, he, hok⟩

/-- Settles O22: `STATUS` is no input, and what a command leaves in it is not what it found there. -/
theorem statusOfEarlierCommandsIsReplaced : Obligations.StatusOfEarlierCommandsIsReplaced := by
  intro i s w
  have he := exec_endsAlike (s := s) (u := { s with status := w }) rfl
    (sameInputs_of_frame i s s.r0 s.r1 s.r2 w s.olen s.tout)
  generalize exec i s = o, exec i { s with status := w } = o' at he ⊢
  cases he <;> rfl

theorem sameOutputs_of_r0 {i : Instr} (h : i ∉ [Instr.stringify, .strEnc, .strDec, .blkDec, .egcd]) {t t' : State}
    (hr : t.r0 = t'.r0) : SameOutputs i t t' := by
  cases i <;> simp_all [SameOutputs]

theorem sameOutputs_of_text {i : Instr} (h : i ∈ [Instr.stringify, .strEnc, .strDec, .blkDec]) {t t' : State}
    (ht : SameOutputText t t') : SameOutputs i t t' := by
  cases i <;> simp_all [SameOutputs]

/-- Settles O23: the two states end the command alike, so its outputs are the same results, or the same text. -/
theorem outcomeDependsOnlyOnTheInputs : Obligations.OutcomeDependsOnlyOnTheInputs := by
  intro i s s' hc h
  have he := exec_endsAlike hc h
  generalize exec i s = o, exec i s' = o' at he ⊢
  cases he with
  | fail hst => exact ⟨_, _, rfl, rfl, rfl, fun h0 => absurd ((status_word_eq_zero _).mp h0) hst⟩
  | int hi v => exact ⟨_, _, rfl, rfl, rfl, fun _ => sameOutputs_of_r0 hi rfl⟩
  | triple hi g x y =>
    subst hi
    exact ⟨_, _, rfl, rfl, rfl, fun _ => ⟨rfl, rfl, rfl⟩⟩
  | @text hi l n hn =>
    refine ⟨_, _, rfl, rfl, rfl, fun _ => sameOutputs_of_text hi ⟨rfl, fun j hj => ?_⟩⟩
    have hjl : j < l.length := Nat.lt_of_lt_of_le hj hn
    calc (s.writeTout l).toutRead j = l[j] := by rw [toutRead_writeTout, dif_pos hjl]
      _ = (s'.writeTout l).toutRead j := by rw [toutRead_writeTout, dif_pos hjl]

/-! ### The same command again -/

/-- A failure depends on the inputs only (60_exceptions.md R175). -/
theorem exec_fails_alike {i : Instr} {s t u : State} (h : exec i s = .next t) (ht : t.status ≠ 0) (hc : s.cfg = u.cfg)
    (hi : SameInputs i s u) : exec i u = .next (u.setStatus t.status) := by
  have he := exec_endsAlike hc hi
  rw [h] at he
  generalize ho : Host.Outcome.next t = o, exec i u = o' at he ⊢
  cases he <;> cases ho
  · rfl
  all_goals exact absurd rfl ht

/-- With no access pending the engine holds its state, however long (60_exceptions.md R184, log 2). -/
theorem run_of_script_eq_nil {s : State} (h : s.script = []) (k : Nat) : core.run k s = .next s := by
  induction k with
  | zero => rfl
  | succ k ih => exact (run_succ (M := core) k (step_of_script_eq_nil h)).trans ih

/-- Settles O21: the failure depends on the inputs only, which the failing command left as they were. -/
theorem failedCommandFailsAgain : Obligations.FailedCommandFailsAgain := by
  intro i s t h ht
  exact ⟨fun u hc hi => exec_fails_alike h ht hc.symm hi,
    exec_fails_alike h ht (cfg_eq_of_exec h).symm (sameInputs_of_exec h), run_of_script_eq_nil rfl⟩

/-- Writing the text that was written to `TOUT` last changes nothing. -/
theorem writeTout_eq_self {s : State} {m : Memory} {l : List Byte} (hm : m.wf) (hs : s.tout = m.writeFrom 0 l) :
    s.writeTout l = s := by
  rw [State.writeTout, hs, memory_writeFrom_idem hm, ← hs]
  rfl

/-- Settles O24: the inputs are the same the second time, so the same results are written to the same places again. -/
theorem repeatedCommandChangesNothingMore : Obligations.RepeatedCommandChangesNothingMore := by
  intro i s t hs h
  have he := exec_endsAlike (cfg_eq_of_exec h).symm (sameInputs_of_exec h)
  generalize ho : exec i s = o, exec i t = o' at he ⊢
  cases he with
  | fail => cases h.symm.trans ho; rfl
  | int hi v => cases h.symm.trans ho; rfl
  | triple hi g x y => cases h.symm.trans ho; rfl
  | @text hi l n hn =>
    cases h.symm.trans ho
    rw [writeTout_eq_self hs rfl]
    rfl

/-! ### The frame -/

/-- A control register can count every text that fits in `MAX_LEN` cells (00_scope.md R5). -/
theorem toNat_ofNat_of_le {n maxLen : Nat} (hn : n ≤ maxLen) (hmax : maxLen < 2 ^ 32) :
    (BitVec.ofNat 32 n).toNat = n := by
  rw [BitVec.toNat_ofNat, Nat.mod_eq_of_lt (by omega)]

theorem maxLen_lt_of_wf {c : Config} (h : c.wf = true) : c.maxLen < 2 ^ 32 := by
  simp [Config.wf] at h
  omega

/-- Settles O25: what each ending of a command leaves unchanged; the written text has `OLEN` characters. -/
theorem commandsChangeOnlyTheirOutputs : Obligations.CommandsChangeOnlyTheirOutputs := by
  intro i s t hs h
  refine ⟨?_, ?_⟩
  · rw [exec_frame h]
    exact ⟨rfl, rfl, rfl, rfl, rfl, rfl, rfl, rfl, rfl, rfl, fun _ => rfl⟩
  · rcases exec_cases i s with ⟨st, -, -, he⟩ | ⟨hi, v, -, he⟩ | ⟨rfl, he⟩ | ⟨hi, l, hl, he⟩ <;> cases h.symm.trans he
    · exact ⟨fun _ => ⟨rfl, rfl⟩, fun _ => ⟨rfl, fun _ _ => rfl⟩, fun _ => ⟨rfl, fun _ => rfl⟩⟩
    · refine ⟨fun _ => ⟨rfl, rfl⟩, fun htext => absurd ?_ hi, fun _ => ⟨rfl, fun _ => rfl⟩⟩
      exact List.mem_append_left [.egcd] htext
    · exact ⟨fun hne => absurd rfl hne, fun htext => absurd htext (by decide), fun _ => ⟨rfl, fun _ => rfl⟩⟩
    · refine ⟨fun _ => ⟨rfl, rfl⟩, fun _ => ⟨rfl, fun j hj => ?_⟩, fun hother => absurd hi hother⟩
      have hj : l.length ≤ j := toNat_ofNat_of_le hl (maxLen_lt_of_wf hs) ▸ hj
      exact (toutRead_writeTout s l j).trans (dif_neg hj.not_gt)

end Sys2Proof.Proofs
end

section
/-! SUPPORT. The statements about EGCD's exact pairs, the affine laws, the width checks, the alphabet and the commands after
reset (40_number_theory.md R92, R94, 41_affine.md R112, R113, 42_alphabet_stream.md R121, R122, 43_block_codec.md R141,
70_reset_and_hazards.md R192). -/

namespace Sys2Proof.Proofs

open Sys2Proof.Machine

/-! ### EGCD -/

/-- Settles O27: the pair of the recursion, whose bounds make it representable. -/
theorem egcdCommandReturnsABezoutPair : Obligations.EgcdCommandReturnsABezoutPair := by
  intro s
  obtain ⟨-, hbezout, hx, hy⟩ := egcd_spec s.opa s.opm
  exact ⟨_, _, exec_egcd s, hbezout, hx, hy, fun hc ha hm => ⟨fits_of_le hc hm hx, fits_of_le hc ha hy⟩⟩

/-- Non-negative operands have no sign to move (40_number_theory.md R93). -/
theorem egcd_natCast (a m : Nat) : egcd a m = egcdNN a m := by
  simp [egcd, signOf, (Int.natCast_nonneg a).not_gt, (Int.natCast_nonneg m).not_gt]

/-- Settles O28: R92's recursion, on the operands' absolute values. -/
theorem egcdFollowsTheRecursion : Obligations.EgcdFollowsTheRecursion := by
  intro s a m g x y hm
  lift m to Nat using hm
  refine ⟨exec_egcd_eq_next_iff.mpr ?_, fun ha h => exec_egcd_eq_next_iff.mpr ?_⟩
  · have hbase : egcd 0 m = (m, 0, 1) := egcd_natCast 0 m
    simp [hbase]
  · lift a to Nat using ha.le
    obtain ⟨hg, hx, hy⟩ := exec_egcd_eq_next_iff.mp h
    dsimp only at hg hx hy ⊢
    rw [← Int.natCast_mod, egcd_natCast] at hx hy
    rw [← Int.natCast_mod, Int.gcd_natCast_natCast, ← Nat.gcd_rec] at hg
    rw [egcd_natCast, egcdNN_pos (by exact_mod_cast ha), hx, hy]
    exact ⟨hg, rfl, rfl⟩

/-- An operand that divides the other is the gcd, by one turn of the recursion (40_number_theory.md R94). -/
theorem egcdNN_of_dvd {a m : Nat} (ha : 0 < a) (h : a ∣ m) : egcdNN a m = (a, 1, 0) := by
  rw [egcdNN_pos ha, Nat.mod_eq_zero_of_dvd h, egcdNN_zero]
  simp

theorem egcd_of_dvd {a m : Int} (ha : a ≠ 0) (h : a ∣ m) : (egcd a m).2 = (if a < 0 then -1 else 1, 0) := by
  have hnn := egcdNN_of_dvd (Int.natAbs_pos.mpr ha) (Int.natAbs_dvd_natAbs.mpr h)
  simp [egcd, hnn, signOf]

theorem egcd_zero_left (m : Int) : (egcd 0 m).2 = (0, if m < 0 then -1 else 1) := by
  simp [egcd, signOf]

/-- Settles O30: the base case, and the turn that ends the recursion for a divisor. -/
theorem egcdCornerPairs : Obligations.EgcdCornerPairs := by
  refine fun s a m => ⟨exec_egcd_eq_next_iff.mpr ?_, fun ha => exec_egcd_eq_next_iff.mpr ?_,
    fun ha hdvd => exec_egcd_eq_next_iff.mpr ?_⟩
  · simp [egcd_zero_left]
  · simp [egcd_of_dvd ha (dvd_zero a)]
  · simp [egcd_of_dvd ha.ne' hdvd, ha.not_gt, Int.gcd_eq_left ha.le hdvd]

/-! ### The affine laws -/

/-- Settles O37: the inverse that AFF_DEC uses undoes the key on either side. -/
theorem affineRoundTrip : Obligations.AffineRoundTrip := by
  intro s hm hg
  obtain ⟨inv, hk⟩ := exists_minvEe_eq_some hm hg
  obtain ⟨-, -, -, -, hinv⟩ := minvEe_some hk
  refine ⟨_, _, exec_affEnc_of_pos hm, ?_, exec_affDec_of_eq_some hk, ?_⟩
  · rw [← decWith_enc hinv s.opa s.keyb]
    exact exec_affDec_of_eq_some hk
  · rw [← enc_decWith hinv s.opa s.keyb]
    exact exec_affEnc_of_pos hm

/-- With a key that shares a divisor with the modulus, 0 and another value below the modulus encrypt alike: that divisor
times the value is the modulus (41_affine.md R113). -/
theorem exists_enc_eq_enc_zero {k m : Int} (hm : 0 < m) (hg : Int.gcd k m ≠ 1) (b : Int) :
    ∃ x, 0 < x ∧ x < m ∧ enc x k b m = enc 0 k b m := by
  have hpos : 0 < Int.gcd k m := Int.gcd_pos_of_ne_zero_right k hm.ne'
  obtain ⟨c, hc⟩ : ((Int.gcd k m : Nat) : Int) ∣ k := Int.gcd_dvd_left ..
  obtain ⟨x, hx⟩ : ((Int.gcd k m : Nat) : Int) ∣ m := Int.gcd_dvd_right ..
  generalize Int.gcd k m = g at hg hpos hc hx
  have hg2 : (2 : Int) ≤ g := by omega
  have hx0 : 0 < x := pos_of_mul_pos_right (hx ▸ hm) (by omega)
  refine ⟨x, hx0, by nlinarith, ?_⟩
  rw [enc, enc, hc, show g * c * x + b = g * c * 0 + b + m * c by rw [hx]; ring, Int.add_mul_emod_self_left]

/-- Settles O38: the collision with 0, and the key that MINV_EE finds no inverse of. -/
theorem nonInvertibleKeyCollides : Obligations.NonInvertibleKeyCollides := by
  intro s hm hg
  obtain ⟨x, hx0, hxm, hx⟩ := exists_enc_eq_enc_zero hm hg s.keyb
  refine ⟨0, x, enc 0 s.keyk s.keyb s.opm, le_rfl, hx0, hxm, exec_affEnc_of_pos hm, ?_, fun b => ?_⟩
  · rw [← hx]
    exact exec_affEnc_of_pos hm
  · exact exec_affDec_of_eq_none hm (minvEe_eq_none hm hg)

/-! ### Widths, letters and reset -/

/-- Settles O43: the width is tested before anything else that the words leave open. -/
theorem blockCommandsCheckTheWidthFirst : Obligations.BlockCommandsCheckTheWidthFirst :=
  fun _ => ⟨fun h => ⟨exec_blkEnc_of_operandRange (.inr h), exec_blkDec_of_operandRange (.inr (.inr h))⟩,
    fun hw hl => exec_blkEnc_of_width_zero hl hw, fun hw hl h0 => exec_blkDec_of_width_zero h0 hl hw⟩

/-- The code of an index in either case range (42_alphabet_stream.md R122). -/
theorem i2l_toNat {i : Nat} (h : i < 52) : (i2l i).toNat = if i ≤ 25 then 0x41 + i else 0x61 + (i - 26) := by
  unfold i2l
  split <;> rw [BitVec.toNat_ofNat, Nat.mod_eq_of_lt (by omega)]

/-- Settles O49: the two ranges of codes, the two ranges of indices, and the two lookups undo each other. -/
theorem alphabetHasTheLetterCodes : Obligations.AlphabetHasTheLetterCodes := by
  refine ⟨fun c => ⟨fun h => if_pos h, fun h => ?_, fun h => ?_, fun i => l2i_some⟩,
    fun i hi => ⟨fun h => ?_, fun h => ?_, l2i_i2l hi⟩⟩
  · rw [l2i, if_neg (by omega), if_pos h]
  · rw [l2i, if_neg (by omega), if_neg (by omega)]
  · rw [i2l_toNat hi, if_pos h]
  · rw [i2l_toNat hi, if_neg (by omega)]

/-- A command word placed at the head of the stream is issued by the next step (log 2). -/
theorem step_withFetchWord_encode (s : State) (i : Instr) :
    step (s.withFetchWord 32 (encode i).toNat) = exec i { s with cmd := encode i } := by
  have hword : BitVec.ofNat 32 ((encode i).toNat % 2 ^ 32) = encode i := by
    rw [Nat.mod_eq_of_lt (encode i).isLt, BitVec.ofNat_toNat, BitVec.setWidth_eq]
  rw [State.withFetchWord, tableAccess, hword]
  exact step_of_decode_eq_some (decode_encode i) s s.script

/-- Settles O8: every operand is 0, so each command ends at its first check that 0 fails, or with the result for 0. -/
theorem everyCommandIsDefinedAfterReset : Obligations.EveryCommandIsDefinedAfterReset := by
  intro c i
  rw [step_withFetchWord_encode]
  have hnone (num : Int) : minvBf num 0 = none ∧ minvEe num 0 = none := minv_of_nonpos le_rfl
  cases i with
  | gcd | egcd => rfl
  | minvBf => exact exec_minvBf_of_eq_none (hnone 0).1
  | minvEe => exact exec_minvEe_of_eq_none (hnone 0).2
  | affEnc => exact exec_affEnc_of_nonpos le_rfl
  | affDec => exact exec_affDec_of_nonpos le_rfl
  | stringify => exact exec_stringify_of_le_maxLen le_rfl (Nat.zero_le _)
  | strEnc => exact exec_strEnc_of_le_maxLen (Nat.zero_le _)
  | strDec => exact exec_strDec_of_eq_none (Nat.zero_le _) (minvEe_eq_none (num := 0) (by norm_num) (by decide))
  | blkEnc => exact exec_blkEnc_of_width_zero (Nat.zero_le _) rfl
  | blkDec => exact exec_blkDec_of_width_zero le_rfl (Nat.zero_le _) rfl

end Sys2Proof.Proofs
end

section
/-! SUPPORT. Host scripts: what a part of a script makes of the state, whatever follows it, and the statement about the
script of `encrypt_caesar_cipher` (30_encoding.md R77, R78). -/

namespace Sys2Proof.Proofs

open Sys2Proof.Machine

/-! ### Parts of a script -/

/-- The accesses `l`, at the head of the host's stream and performed to their end, take the state `s` to `t`. -/
def ScriptTakes (l : List HostAccess) (s t : State) : Prop :=
  ∀ rest, core.run l.length (s.setScript (l ++ rest)) = .next (t.setScript rest)

theorem scriptTakes_append {l l' : List HostAccess} {s t u : State} (h : ScriptTakes l s t) (h' : ScriptTakes l' t u) :
    ScriptTakes (l ++ l') s u := by
  intro rest
  rw [List.length_append, List.append_assoc]
  exact (run_add l'.length (h (l' ++ rest))).trans (h' rest)

theorem scriptTakes_cons {a : HostAccess} {l : List HostAccess} {s t u : State}
    (h : ∀ rest, access a (s.setScript rest) = .next (t.setScript rest)) (h' : ScriptTakes l t u) :
    ScriptTakes (a :: l) s u :=
  fun rest => (run_succ _ (h (l ++ rest))).trans (h' rest)

theorem scriptTakes_nil (s : State) : ScriptTakes [] s s := fun _ => rfl

theorem scriptTakes_scriptCells {s : State} {cs : List Byte} (h : cs.length ≤ s.cfg.maxLen) :
    ScriptTakes (scriptCells 0 cs) s (s.setTin (s.tin.writeFrom 0 cs)) := by
  intro rest
  rw [scriptCells_length]
  exact run_scriptCells rest cs s 0 (by omega)

theorem scriptTakes_rdTout {s : State} {l : List Nat} (h : ∀ j ∈ l, j < s.cfg.maxLen) :
    ScriptTakes (l.map HostAccess.rdTout) s
      (s.setReads ((l.map fun j => HostValue.code (s.toutRead j)).reverse ++ s.reads)) := by
  intro rest
  rw [List.length_map]
  exact run_rdTout rest l s h

/-- The whole of a script, run to its end. -/
theorem run_of_scriptTakes {l : List HostAccess} {s t : State} (h : ScriptTakes l s t) :
    core.run l.length { s with script := l } = .next (t.setScript []) := by
  have hrun := h []
  rw [List.append_nil] at hrun
  exact hrun

/-! ### The accesses of the script -/

theorem access_wrInt_setScript {r : IntReg} {v : Int} {s : State} (h : s.fits v = true) (rest : List HostAccess) :
    access (.wrInt r v) (s.setScript rest) = .next ((s.hostWriteInt r v).setScript rest) :=
  hostWrInt_eq_next_iff.mpr ⟨h, by cases r <;> rfl⟩

/-- The accesses still to come are no input of a command. -/
theorem exec_setScript {i : Instr} {s t : State} (h : exec i s = .next t) (l : List HostAccess) :
    exec i (s.setScript l) = .next (t.setScript l) := by
  have hi : SameInputs i s (s.setScript l) := by cases i <;> simp [SameInputs, SameText]
  have he := exec_endsAlike (setScript_cfg s l).symm hi
  rw [h] at he
  generalize ho : Host.Outcome.next t = o, exec i (s.setScript l) = o' at he ⊢
  cases he <;> cases ho <;> rfl

theorem access_scriptCmd_setScript {i : Instr} {s t : State} (h : exec i (s.setCmd (encode i)) = .next t)
    (rest : List HostAccess) : access (scriptCmd i) (s.setScript rest) = .next (t.setScript rest) :=
  (issue_of_eq_some (decode_encode i) _).trans (exec_setScript h rest)

/-- The host's writes of a text, read back (20_memory.md R52). -/
theorem tinRead_writeFrom (s : State) (cs : List Byte) (j : Nat) :
    (s.setTin (s.tin.writeFrom 0 cs)).tinRead j = if h : j < cs.length then cs[j] else s.tinRead j := by
  simp only [State.tinRead, setTin_tin, get?_writeFrom]
  by_cases h : j < cs.length <;> simp [h]

/-! ### The statement -/

/-- The state in which the script of `encrypt_caesar_cipher` issues its command: text, length and key are written. -/
def caesarOperands (s : State) (txt : List Byte) (k b : Int) : State :=
  (((s.setLen (BitVec.ofNat 32 txt.length)).setTin (s.tin.writeFrom 0 txt)).setKeyk k).setKeyb b

/-- STR_ENC on the operands the script has written (42_alphabet_stream.md R125). -/
theorem exec_strEnc_caesarOperands {s : State} {txt : List Byte} {k b : Int} {p : Nat → Nat}
    (hl : txt.length ≤ s.cfg.maxLen) (hmax : s.cfg.maxLen < 2 ^ 32)
    (hp : ∀ j (h : j < txt.length), l2i txt[j] = some (p j)) :
    ∃ t : State, exec .strEnc ((caesarOperands s txt k b).setCmd (encode .strEnc)) = .next t ∧ t.cfg = s.cfg ∧
      t.status = 0 ∧ t.olen = BitVec.ofNat 32 txt.length ∧ t.reads = s.reads ∧
      ∀ j < txt.length, t.toutRead j = i2l ((k * p j + b) % 52).toNat := by
  have hlen := toNat_ofNat_of_le hl hmax
  have hletters : ∀ j < (BitVec.ofNat 32 txt.length).toNat, l2i ((caesarOperands s txt k b).tinRead j) = some (p j) := by
    intro j hj
    have hj : j < txt.length := hlen ▸ hj
    have hread : (caesarOperands s txt k b).tinRead j = txt[j] := (tinRead_writeFrom s txt j).trans (dif_pos hj)
    rw [hread, hp j hj]
  obtain ⟨m, hm, hout⟩ := exec_strEnc_of_letters (s := (caesarOperands s txt k b).setCmd (encode .strEnc))
    (hlen.trans_le hl) hletters
  exact ⟨_, hm, rfl, rfl, rfl, rfl, fun j hj => (hout j).trans (if_pos (hlen.symm ▸ hj))⟩

/-- Settles O16: the writes put the operands in place, STR_ENC encrypts the text, and the reads return what it wrote. -/
theorem caesarScriptEncryptsItsText : Obligations.CaesarScriptEncryptsItsText := by
  intro s txt k b p hl hmax hk hb hp
  obtain ⟨t, ht, hcfg, hstatus, holen, hreads, hout⟩ := exec_strEnc_caesarOperands (k := k) (b := b) hl hmax hp
  have hwrites : ScriptTakes (scriptText txt ++ scriptKey k b) s (caesarOperands s txt k b) :=
    scriptTakes_append
      (scriptTakes_cons (t := s.setLen (BitVec.ofNat 32 txt.length)) (fun _ => rfl) (scriptTakes_scriptCells hl))
      (scriptTakes_cons (access_wrInt_setScript hk) (scriptTakes_cons (access_wrInt_setScript hb) (scriptTakes_nil _)))
  have hcommand : ScriptTakes [scriptCmd .strEnc, .rdCtl .status] (caesarOperands s txt k b)
      (t.observe (.word t.status)) :=
    scriptTakes_cons (access_scriptCmd_setScript ht) (scriptTakes_cons (fun _ => rfl) (scriptTakes_nil _))
  have hcells : ∀ j ∈ List.range txt.length, j < t.cfg.maxLen :=
    fun j hj => hcfg.symm ▸ (List.mem_range.mp hj).trans_le hl
  have hrdtext := scriptTakes_cons (a := .rdCtl .olen) (s := t.observe (.word t.status))
    (t := (t.observe (.word t.status)).observe (.word t.olen)) (fun _ => rfl) (scriptTakes_rdTout hcells)
  refine ⟨_, run_of_scriptTakes (scriptTakes_append (scriptTakes_append hwrites hcommand) hrdtext),
    rfl, hstatus, ?_, hout, ?_⟩
  · exact (congrArg BitVec.toNat holen).trans (toNat_ofNat_of_le hl hmax)
  · have hcodes := List.map_congr_left fun j hj => congrArg HostValue.code (hout j (List.mem_range.mp hj))
    rw [← hcodes, ← holen, ← hreads]
    exact congrArg (fun w => _ ++ HostValue.word t.olen :: HostValue.word w :: t.reads) hstatus

end Sys2Proof.Proofs
end

section
/-! SUPPORT. The laws of the block codec: what BLK_DEC recovers from the ciphertext of BLK_ENC, from 0, and with a smaller
length (43_block_codec.md R149, R151, 70_reset_and_hazards.md R196, R199). -/

namespace Sys2Proof.Proofs

open Sys2Proof.Machine

/-! ### Commands that succeed, by their lists of indices -/

/-- A command that ends with `ST_OK` does not end as a failing one does. -/
theorem eq_ok_of_exec {i : Instr} {s t : State} {st : Status} (h : exec i s = .next t) (ht : t.status = 0)
    (he : exec i s = .next (s.setStatus st.word)) : st = .ok := by
  cases h.symm.trans he
  exact (status_word_eq_zero st).mp ht

/-- BLK_ENC ends with `ST_OK` only on a text of letters, and then with the ciphertext of their indices in `R0`
(R146). -/
theorem exec_blkEnc_success {s t : State} (h : exec .blkEnc s = .next t) (ht : t.status = 0) :
    ∃ p, letterIndices s.text = some p ∧
      t = { s with r0 := ciphertext p s.keyk s.keyb s.width.toNat, status := 0 } := by
  rcases execBlkEnc_cases s with ⟨-, he⟩ | ⟨-, -, ⟨-, he⟩ | ⟨-, -, he⟩ | ⟨p, -, hp, ⟨-, he⟩ | ⟨-, he⟩⟩⟩
  on_goal 5 => exact ⟨p, hp, Host.Outcome.next.inj (h.symm.trans he)⟩
  all_goals exact nomatch eq_ok_of_exec h ht he

/-- BLK_DEC ends with `ST_OK` only after all of its checks (R150). -/
theorem exec_blkDec_success {s t : State} (h : exec .blkDec s = .next t) (ht : t.status = 0) :
    0 ≤ s.opa ∧ s.len.toNat ≤ s.cfg.maxLen ∧ s.width.toNat ≤ s.cfg.maxWidth ∧ 0 < s.width.toNat ∧
      ∃ inv, minvEe s.keyk (blockModulus s.width.toNat) = some inv ∧
        s.len.toNat ≤ (recoveredIndices inv s.keyb s.width.toNat s.opa.toNat).length ∧
        ∀ i ∈ recoveredIndices inv s.keyb s.width.toNat s.opa.toNat, i ≤ 51 := by
  rcases execBlkDec_cases s with
      ⟨-, he⟩ | ⟨h0, hl, hw, ⟨-, he⟩ | ⟨-, -, he⟩ | ⟨inv, hpos, hk, ⟨-, he⟩ | ⟨-, -, he⟩ | ⟨hlen, hgood, he⟩⟩⟩
  on_goal 6 => exact ⟨h0, hl, hw, hpos, inv, hk, by rwa [recoveredIndices_length], hgood⟩
  all_goals exact nomatch eq_ok_of_exec h ht he

section
variable {s : State} (h0 : 0 ≤ s.opa) (hl : s.len.toNat ≤ s.cfg.maxLen) (hpos : 0 < s.width.toNat)
  (hw : s.width.toNat ≤ s.cfg.maxWidth) {inv : Int} (hk : minvEe s.keyk (blockModulus s.width.toNat) = some inv)
include h0 hl hpos hw hk

/-- When every recovered group is an index, BLK_DEC writes the letters of the last `LEN` (R149, R150). -/
theorem exec_blkDec_of_indices {r : List Nat} (hr : recoveredIndices inv s.keyb s.width.toNat s.opa.toNat = r)
    (hlen : s.len.toNat ≤ r.length) (hgood : ∀ i ∈ r, i ≤ 51) :
    exec .blkDec s = .next { s with
      tout := (s.writeTout ((lastOf s.len.toNat r).map i2l)).tout, olen := s.len, status := 0 } := by
  have hcount : r.length = chunkCount s.width.toNat s.opa.toNat * s.width.toNat := hr ▸ recoveredIndices_length ..
  rw [exec, execBlkDec, if_neg (by omega), if_neg hpos.ne', hk]
  dsimp only
  rw [hr, if_neg (by omega), if_neg (by simpa using hgood)]
  rfl

/-- Fewer recovered letters than `LEN` asks for (R150). -/
theorem exec_blkDec_of_short (h : chunkCount s.width.toNat s.opa.toNat * s.width.toNat < s.len.toNat) :
    exec .blkDec s = .next { s with status := 8 } := by
  rw [exec, execBlkDec, if_neg (by omega), if_neg hpos.ne', hk]
  dsimp only
  rw [if_pos h]
  rfl

end

/-! ### A smaller length (R149) -/

/-- The last `n` entries, by their position from the end. -/
theorem lastOf_getElem {n : Nat} {r : List Nat} (hn : n ≤ r.length) (j : Nat) (hj : j < (lastOf n r).length) :
    (lastOf n r)[j] = r[r.length - n + j]'(by rw [lastOf_length hn] at hj; omega) := by
  simp [lastOf]

/-- The output text of BLK_DEC, read back. -/
theorem toutRead_writeTout_lastOf (s : State) {n : Nat} {r : List Nat} (hn : n ≤ r.length) {j : Nat} (hj : j < n) :
    (s.writeTout ((lastOf n r).map i2l)).toutRead j = i2l (r[r.length - n + j]'(by omega)) := by
  have hjl : j < ((lastOf n r).map i2l).length := by rwa [List.length_map, lastOf_length hn]
  rw [toutRead_writeTout, dif_pos hjl, List.getElem_map, lastOf_getElem hn]

/-- Settles O48: the recovered indices do not depend on `LEN`, which only says how many of the last ones are kept. -/
theorem smallerLengthReturnsASuffix : Obligations.SmallerLengthReturnsASuffix := by
  intro s t l hls h ht
  obtain ⟨h0, hl, hw, hpos, inv, hk, hlen, hgood⟩ := exec_blkDec_success h ht
  obtain rfl := Host.Outcome.next.inj (h.symm.trans (exec_blkDec_of_indices h0 hl hpos hw hk rfl hlen hgood))
  refine ⟨_, exec_blkDec_of_indices (s := { s with len := l }) h0 (hls.trans hl) hpos hw hk rfl (hls.trans hlen) hgood,
    fun j hj => ?_⟩
  have hlong := toutRead_writeTout_lastOf s hlen (j := s.len.toNat - l.toNat + j) (by omega)
  have hshort := toutRead_writeTout_lastOf { s with len := l } (hls.trans hlen) hj
  refine hshort.trans (Eq.trans ?_ hlong.symm)
  congr 2
  omega

/-! ### The empty text (R145, R151) -/

/-- With a bias that is 0 modulo `M(w)` the ciphertext 0 decrypts to groups `00` only. -/
theorem recoveredIndices_zero {inv b : Int} {w : Nat} (hb : b % blockModulus w = 0) :
    ∀ i ∈ recoveredIndices inv b w 0, i = 0 := by
  have hzero : decWith inv 0 b (blockModulus w) = 0 := by
    obtain ⟨c, rfl⟩ := Int.dvd_of_emod_eq_zero hb
    rw [decWith, show inv * (0 - blockModulus w * c) = blockModulus w * -(inv * c) by ring, Int.mul_emod_right]
  intro i hi
  obtain ⟨y, hy, hi⟩ := List.mem_flatMap.mp hi
  obtain ⟨j, -, rfl⟩ := List.mem_map.mp hy
  obtain ⟨t, -, rfl⟩ := List.mem_map.mp hi
  simp [hzero]

/-- 0 is representable in a register of any width (10_state.md R21). -/
theorem fits_zero (s : State) : s.fits 0 = true := by
  unfold State.fits IntBits.fits
  split <;> simp

/-- Settles O47: there is no block to encrypt; and no letter is kept of what 0 decrypts to. -/
theorem emptyTextEncryptsToZero : Obligations.EmptyTextEncryptsToZero := by
  intro s hlen hpos hw
  have hl : s.len.toNat = 0 := by simp [hlen]
  refine ⟨?_, fun hopa hg hb => ?_⟩
  · have hc : ciphertextForm (fun _ => 0) s.keyk s.keyb s.len.toNat s.width.toNat = 0 := by
      have hcount : blockCount 0 s.width.toNat = 0 := Nat.div_eq_of_lt (by omega)
      rw [ciphertextForm, hl, hcount, Finset.sum_range_zero]
    rw [exec_blkEnc_of_letters (p := fun _ => 0) (by omega) hpos hw (by omega), hc, Nat.cast_zero, if_pos (fits_zero s)]
  · rw [← blockModulus_eq_modulusForm] at hg hb
    obtain ⟨inv, hk⟩ := exists_minvEe_eq_some (by exact_mod_cast blockModulus_pos hpos) hg
    have hgood : ∀ i ∈ recoveredIndices inv s.keyb s.width.toNat s.opa.toNat, i ≤ 51 := by
      intro i hi
      rw [hopa] at hi
      have hi0 := recoveredIndices_zero hb i hi
      omega
    rw [exec_blkDec_of_indices (by omega) (by omega) hpos hw hk rfl (by omega) hgood, hl, hlen]
    simp [lastOf, State.writeTout, Memory.writeFrom]

end Sys2Proof.Proofs
end

section
/-! SUPPORT. The round trip of the block codec (43_block_codec.md R151): the chunks of a ciphertext whose leading block is
not lost are its encrypted blocks, and they decrypt to the text's indices behind groups `00`. -/

namespace Sys2Proof.Proofs

open Sys2Proof.Machine

/-! ### The encrypted blocks -/

theorem encryptedBlocks_lt {w : Nat} (hw : 0 < w) (p : List Nat) (k b : Int) :
    ∀ e ∈ encryptedBlocks p k b w, e < 100 ^ w := by
  intro e he
  obtain ⟨blk, -, rfl⟩ := List.mem_map.mp he
  obtain ⟨-, hlt⟩ := enc_range (m := blockModulus w) (by exact_mod_cast blockModulus_pos hw) (blockValue blk) k b
  have hmod := blockModulus_lt w
  omega

theorem encryptedBlocks_length {w : Nat} (hw : 0 < w) (p : List Nat) (k b : Int) :
    (encryptedBlocks p k b w).length = blockCount p.length w := by
  rw [encryptedBlocks, List.length_map, partition_length_eq_blockCount hw]

/-- A ciphertext with as many chunks as there are blocks has the encrypted blocks as its chunks (R145, R147). -/
theorem chunks_ciphertext {w : Nat} (hw : 0 < w) {p : List Nat} {k b : Int}
    (hcount : chunkCount w (ciphertext p k b w) = blockCount p.length w) :
    chunks w (ciphertext p k b w) = encryptedBlocks p k b w := by
  have hlen := encryptedBlocks_length hw p k b
  refine List.ext_getElem (by simp [chunks, hcount, hlen]) fun j hj hj' => ?_
  rw [← joinBlocks_chunk (encryptedBlocks_lt hw p k b) j hj', hlen, ← hcount]
  simp [chunks, ciphertext]

/-! ### Decrypted blocks -/

/-- A block of letter indices is recovered from its encryption, behind groups `00` when it is short (R148, R151). -/
theorem digitGroups_decrypted {w : Nat} (hw : 0 < w) {k inv : Int}
    (hinv : (k * inv) % blockModulus w = 1 % blockModulus w) (b : Int) {blk : List Nat}
    (hblk : ∀ i ∈ blk, i < 52) (h0 : 0 < blk.length) (hlen : blk.length ≤ w) :
    digitGroups w (decWith inv (enc (blockValue blk) k b (blockModulus w)).toNat b (blockModulus w)).toNat =
      List.replicate (w - blk.length) 0 ++ blk := by
  obtain ⟨hnonneg, -⟩ := enc_range (m := blockModulus w) (by exact_mod_cast blockModulus_pos hw) (blockValue blk) k b
  have hlt : blockValue blk < blockModulus w :=
    (blockValue_lt_modulus hblk h0).trans_le (blockModulus_mono hlen)
  rw [Int.toNat_of_nonneg hnonneg, decWith_enc hinv, Int.emod_eq_of_lt (by positivity) (by exact_mod_cast hlt),
    Int.toNat_natCast]
  exact digitGroups_blockValue (fun i hi => (hblk i hi).trans (by norm_num)) hlen

/-- Padding every block to `w` groups pads the text in front, because only the leftmost block can be short (R142). -/
theorem flatMap_pad_partition {w : Nat} (p : List Nat) :
    ∃ n, ((partition w p).flatMap fun blk => List.replicate (w - blk.length) 0 ++ blk) = List.replicate n 0 ++ p := by
  have hflat := partition_flatten w p
  have htail := partition_tail_size (w := w) p
  cases hp : partition w p with
  | nil => exact ⟨0, by simpa [hp] using hflat⟩
  | cons blk rest =>
    rw [hp] at hflat htail
    have hrest : (rest.flatMap fun blk => List.replicate (w - blk.length) 0 ++ blk) = rest.flatten := by
      rw [List.flatMap, List.map_congr_left (g := id) fun c hc => by simp [htail c hc], List.map_id]
    refine ⟨w - blk.length, ?_⟩
    rw [List.flatMap_cons, hrest, List.append_assoc, ← hflat, List.flatten_cons]

/-- BLK_DEC recovers the indices of the text behind groups `00` (R148, R151). -/
theorem recoveredIndices_ciphertext {w : Nat} (hw : 0 < w) {p : List Nat} {k b inv : Int} (hp : ∀ i ∈ p, i < 52)
    (hinv : (k * inv) % blockModulus w = 1 % blockModulus w)
    (hcount : chunkCount w (ciphertext p k b w) = blockCount p.length w) :
    ∃ n, recoveredIndices inv b w (ciphertext p k b w) = List.replicate n 0 ++ p := by
  obtain ⟨n, hn⟩ := flatMap_pad_partition (w := w) p
  refine ⟨n, ?_⟩
  rw [recoveredIndices, chunks_ciphertext hw hcount, encryptedBlocks, List.flatMap_map, ← hn]
  refine List.flatMap_congr fun blk hblk => ?_
  obtain ⟨h0, hlen⟩ := partition_size hw p blk hblk
  refine digitGroups_decrypted hw hinv b (fun i hi => hp i ?_) h0 hlen
  rw [← partition_flatten w p]
  exact List.mem_flatten_of_mem hblk hi

theorem lastOf_append_right (n : Nat) (q p : List Nat) (h : n = p.length) : lastOf n (q ++ p) = p := by
  simp [lastOf, h]

/-! ### The number of chunks -/

theorem blockCount_eq_one {l w : Nat} (h0 : 0 < l) (h : l ≤ w) : blockCount l w = 1 :=
  Nat.div_eq_of_lt_le (by omega) (by omega)

theorem two_le_blockCount {l w : Nat} (hw : 0 < w) (h : w < l) : 2 ≤ blockCount l w :=
  (Nat.le_div_iff_mul_le hw).mpr (by omega)

/-- All blocks but one do not hold the text. -/
theorem blockCount_sub_one_mul_lt {l w : Nat} (hl : 0 < l) : (blockCount l w - 1) * w < l := by
  have hle : blockCount l w * w ≤ l + w - 1 := Nat.div_mul_le_self _ _
  rw [Nat.sub_one_mul]
  omega

/-- No leading block is lost when there is one block only, or when the ciphertext has digits for its leading block
(R199). -/
theorem chunkCount_ciphertext {w : Nat} (hw : 0 < w) {p : List Nat} {k b : Int} (h0 : 0 < p.length)
    (h : p.length ≤ w ∨ 100 ^ (w * (blockCount p.length w - 1)) ≤ ciphertext p k b w) :
    chunkCount w (ciphertext p k b w) = blockCount p.length w := by
  have hpos := chunkCount_pos hw (ciphertext p k b w)
  have hblocks : 0 < blockCount p.length w := Nat.div_pos (by omega) hw
  have hlt : ciphertext p k b w < 100 ^ (w * blockCount p.length w) := by
    rw [← encryptedBlocks_length hw p k b]
    exact joinBlocks_lt (encryptedBlocks_lt hw p k b)
  refine le_antisymm ((chunkCount_le_iff hw _ _ hblocks).mpr hlt) ?_
  rcases h with h | h
  · rw [blockCount_eq_one h0 h]
    exact hpos
  · by_contra hfew
    exact h.not_gt ((chunkCount_le_iff hw _ (blockCount p.length w - 1) (by omega)).mp (by omega))

/-! ### The statement -/

/-- The letters of the text's indices, read back from `TOUT`, are the text. -/
theorem toutRead_writeTout_letters {s : State} {p : List Nat} (hp : letterIndices s.text = some p) (u : State) {j : Nat}
    (hj : j < s.len.toNat) : (u.writeTout (p.map i2l)).toutRead j = s.tinRead j := by
  obtain ⟨hlen, hcells⟩ := letterIndices_text.mp hp
  have hjp : j < p.length := hlen.symm ▸ hj
  obtain ⟨-, hletter⟩ := l2i_some (hcells j hjp)
  rw [toutRead_writeTout, dif_pos (by rwa [List.length_map]), List.getElem_map, hletter]

/-- When BLK_DEC recovers as many indices of letters as `LEN` says, behind groups `00`, it writes their letters. -/
theorem exec_blkDec_of_padded {s : State} (h0 : 0 ≤ s.opa) (hl : s.len.toNat ≤ s.cfg.maxLen) (hpos : 0 < s.width.toNat)
    (hw : s.width.toNat ≤ s.cfg.maxWidth) {inv : Int} (hk : minvEe s.keyk (blockModulus s.width.toNat) = some inv)
    {n : Nat} {p : List Nat} (hp : ∀ i ∈ p, i < 52) (hlen : s.len.toNat = p.length)
    (hr : recoveredIndices inv s.keyb s.width.toNat s.opa.toNat = List.replicate n 0 ++ p) :
    exec .blkDec s = .next { s with tout := (s.writeTout (p.map i2l)).tout, olen := s.len, status := 0 } := by
  have hgood : ∀ i ∈ List.replicate n 0 ++ p, i ≤ 51 := by
    intro i hi
    rcases List.mem_append.mp hi with hi | hi
    · rw [List.eq_of_mem_replicate hi]
      norm_num
    · exact Nat.le_of_lt_succ (hp i hi)
  rw [exec_blkDec_of_indices h0 hl hpos hw hk hr (by simp [hlen]) hgood, lastOf_append_right _ _ _ hlen]

/-- Settles O46: with all blocks present the text is recovered; without the leading one too few letters are. -/
theorem blockRoundTrip : Obligations.BlockRoundTrip := by
  intro s t h0 hl hpos hw _ hg henc ht
  obtain ⟨p, hp, rfl⟩ := exec_blkEnc_success henc ht
  have hlen : s.len.toNat = p.length := ((letterIndices_length hp).trans (text_length s)).symm
  rw [← blockModulus_eq_modulusForm] at hg
  obtain ⟨inv, hk⟩ := exists_minvEe_eq_some (by exact_mod_cast blockModulus_pos hpos) hg
  obtain ⟨-, -, -, -, hinv⟩ := minvEe_some hk
  generalize hc : ciphertext p s.keyk s.keyb s.width.toNat = c
  have hnonneg := Int.natCast_nonneg c
  rw [hlen] at h0 ⊢
  dsimp only
  refine ⟨fun hall => ?_, fun hlong hlost => ?_⟩
  · subst hc
    have hcount := chunkCount_ciphertext hpos h0 (by exact_mod_cast hall)
    obtain ⟨n, hr⟩ := recoveredIndices_ciphertext hpos (letterIndices_lt hp) hinv hcount
    exact ⟨_, exec_blkDec_of_padded (s := { s with r0 := _, status := 0, opa := _ }) hnonneg hl hpos hw hk
      (letterIndices_lt hp) hlen hr,
      fun j hj => toutRead_writeTout_letters hp _ (hlen.symm ▸ hj)⟩
  · have hfew := (chunkCount_le_iff hpos c _
      (Nat.sub_pos_of_lt (two_le_blockCount hpos hlong))).mpr (by exact_mod_cast hlost)
    have hshort := (Nat.mul_le_mul_right _ hfew).trans_lt (blockCount_sub_one_mul_lt h0)
    exact exec_blkDec_of_short hnonneg hl hpos hw hk (hlen.symm ▸ hshort)

end Sys2Proof.Proofs
end
